-- ==== Sys2Proof/Word.lean ====
section
/-! DEFINITION. The value types of the spec's notation: unsigned values of a stated width (00_scope.md R11) and byte
sequences (00_scope.md R12). -/

namespace Sys2Proof

/-- `u8` (00_scope.md R11). -/
abbrev Byte := BitVec 8

/-- `u32` (00_scope.md R11). -/
abbrev U32 := BitVec 32

/-- `u64` (00_scope.md R11). -/
abbrev U64 := BitVec 64

/-- `Bytes`: a finite sequence of `u8`, offset 0 first (00_scope.md R10, R12). -/
abbrev Bytes := List Byte

end Sys2Proof
end

