-- ==== Sys2Proof/Config.lean ====
section
/-! DEFINITION. The fixed constants (00_scope.md R5, R9) and the synthesis-time parameters (00_scope.md R6, R7, R8). -/

namespace Sys2Proof

/-- `PREFIX_SIZE`: the messageType byte and the frameLength word (00_scope.md R5). -/
abbrev lengthPrefixSize : Nat := 5

/-- `TS_SIZE`: the two timestamp words (00_scope.md R5). -/
abbrev tsSize : Nat := 8

/-- `HEADER_SIZE = PREFIX_SIZE + TS_SIZE` (00_scope.md R5). -/
abbrev headerSize : Nat := lengthPrefixSize + tsSize

/-- `TS_LIMIT = 2^53` (00_scope.md R9). -/
abbrev tsLimit : Nat := 2 ^ 53

/-- `TS_LIMIT` in the high timestamp word: `hi < 2^21` (00_scope.md R9). -/
abbrev tsHiLimit : Nat := 2 ^ 21

/-- The parameters fixed when the block is built (10_state.md R31).  A count the block compares without wrap-around
(00_scope.md R11) is a `Nat`; its range is `Config.wf`. -/
structure Config where
  /-- `BUF_CAP`, the capacity of the pending buffer in bytes (00_scope.md R6). -/
  bufCap : Nat
  /-- `MAX_FRAME_LEN`, the largest frameLength accepted and produced (00_scope.md R7). -/
  maxFrameLen : Nat
  /-- `ACTION_MSG_TYPE`, the messageType SEND_ACTION writes (00_scope.md R8). -/
  actionMsgType : Byte
  deriving DecidableEq, Repr

/-- The constraints of 00_scope.md R6 and R7. -/
def Config.wf (c : Config) : Bool :=
  decide (13 ≤ c.bufCap) && decide (c.bufCap ≤ 2 ^ 32 - 1) &&
    decide (8 ≤ c.maxFrameLen) && decide (c.maxFrameLen ≤ 2 ^ 32 - 1)

/-- The OPEN value of `ACTION_MSG_TYPE`: no source gives it, so it has no body (00_scope.md R8; log entry 2). -/
opaque Config.openActionMsgType : Byte

/-- The build with the spec's defaults: `BUF_CAP = 1000` (00_scope.md R6), `MAX_FRAME_LEN = BUF_CAP - 5`
(00_scope.md R7), and the OPEN action type (log entry 2). -/
def Config.standard : Config :=
  { bufCap := 1000, maxFrameLen := 1000 - 5, actionMsgType := Config.openActionMsgType }

end Sys2Proof
end

