-- ==== Sys2Proof/Syntax.lean ====
section
/-! DEFINITION. The commands of the block, one constructor per row of spec/opcode_table.json, and the form in which a
command stands on the command interface (30_encoding.md R72). -/

namespace Sys2Proof

/-- A command (30_encoding.md R72, R73).  The length operands `n` and `L` of FEED and ENCODE are the lengths of their
byte operands ("`chunk: Bytes` of length `n: u32`", 41_decoder.md R122), and `Instr.wf` says that each is a `u32`.
The six `reserved` constructors are the table's six RESERVED rows; each holds the opcode bits its row does not fix. -/
inductive Instr where
  /-- 0x01 FEED (41_decoder.md R122). -/
  | feed (chunk : Bytes)
  /-- 0x02 ENCODE (42_encoder.md R160). -/
  | encode (mtype : Byte) (ts : U64) (payload : Bytes)
  /-- 0x03 SEND_ACTION (42_encoder.md R164); `keys` bit 0 UP, 1 DOWN, 2 LEFT, 3 RIGHT, 4 BOMB. -/
  | sendAction (userId : U32) (keys : BitVec 5)
  /-- 0x04 TS_SPLIT (40_codec.md R100). -/
  | tsSplit (ts : U64)
  /-- 0x05 TS_JOIN (40_codec.md R101). -/
  | tsJoin (hi lo : U32)
  /-- 0x06 READ_STATUS (43_control.md R190). -/
  | readStatus
  /-- 0x07 SOFT_RESET (43_control.md R191). -/
  | softReset
  /-- RESERVED 0x00 (43_control.md R192). -/
  | reserved00
  /-- RESERVED 0x08..0x0F, encoding 00001ooo (43_control.md R192). -/
  | reserved08 (o : BitVec 3)
  /-- RESERVED 0x10..0x1F, encoding 0001oooo (43_control.md R192). -/
  | reserved10 (o : BitVec 4)
  /-- RESERVED 0x20..0x3F, encoding 001ooooo (43_control.md R192). -/
  | reserved20 (o : BitVec 5)
  /-- RESERVED 0x40..0x7F, encoding 01oooooo (43_control.md R192). -/
  | reserved40 (o : BitVec 6)
  /-- RESERVED 0x80..0xFF, encoding 1ooooooo (43_control.md R192). -/
  | reserved80 (o : BitVec 7)
  deriving DecidableEq, Repr

/-- The mnemonic of a command's row in spec/opcode_table.json. -/
def Instr.mnemonic : Instr → String
  | .feed _ => "FEED"
  | .encode _ _ _ => "ENCODE"
  | .sendAction _ _ => "SEND_ACTION"
  | .tsSplit _ => "TS_SPLIT"
  | .tsJoin _ _ => "TS_JOIN"
  | .readStatus => "READ_STATUS"
  | .softReset => "SOFT_RESET"
  | .reserved00 => "RESERVED"
  | .reserved08 _ => "RESERVED"
  | .reserved10 _ => "RESERVED"
  | .reserved20 _ => "RESERVED"
  | .reserved40 _ => "RESERVED"
  | .reserved80 _ => "RESERVED"

/-- Whether a command's opcode is reserved (30_encoding.md R73). -/
def Instr.isReserved : Instr → Bool
  | .feed _ => false
  | .encode _ _ _ => false
  | .sendAction _ _ => false
  | .tsSplit _ => false
  | .tsJoin _ _ => false
  | .readStatus => false
  | .softReset => false
  | .reserved00 => true
  | .reserved08 _ => true
  | .reserved10 _ => true
  | .reserved20 _ => true
  | .reserved40 _ => true
  | .reserved80 _ => true

/-- One command as it stands on the command interface: the opcode and the values of the operand ports of
70_reset_and_hazards.md R252 (`cmd_op`, `cmd_mtype`, `cmd_ts`, `cmd_len`, `cmd_user`, `cmd_keys`, `cmd_hi`, `cmd_lo`
and the `cmd_len` bytes of `in_data`).  An opcode uses the ports of its own operands (30_encoding.md R72). -/
structure Command where
  op : Byte
  mtype : Byte
  ts : U64
  len : U32
  user : U32
  keys : BitVec 5
  hi : U32
  lo : U32
  data : Bytes
  deriving DecidableEq, Repr

/-- A command interface that carries the opcode `op` and zeros on every operand port. -/
def Command.blank (op : Byte) : Command :=
  { op := op, mtype := 0, ts := 0, len := 0, user := 0, keys := 0, hi := 0, lo := 0, data := [] }

end Sys2Proof
end

