-- ==== Sys2Proof/WellFormed.lean ====
section
/-! DEFINITION. Which commands are well formed: a byte operand's length is a `u32` (30_encoding.md R72, R74). -/

namespace Sys2Proof

/-- The length operand `n` of FEED and `L` of ENCODE is a `u32` (30_encoding.md R72); every other operand is within its
width by its type. -/
def Instr.wf : Instr → Bool
  | .feed chunk => decide (chunk.length < 2 ^ 32)
  | .encode _ _ payload => decide (payload.length < 2 ^ 32)
  | .sendAction _ _ => true
  | .tsSplit _ => true
  | .tsJoin _ _ => true
  | .readStatus => true
  | .softReset => true
  | .reserved00 => true
  | .reserved08 _ => true
  | .reserved10 _ => true
  | .reserved20 _ => true
  | .reserved40 _ => true
  | .reserved80 _ => true

end Sys2Proof
end

