-- ==== Sys2Proof/Decode.lean ====
section
/-! DEFINITION. Decoding a command from the command interface, and encoding one onto it (30_encoding.md R72, R73;
spec/opcode_table.json). -/

namespace Sys2Proof

/-- Why a value on the command interface is no command of 30_encoding.md R72. -/
inductive DecodeError where
  /-- A byte operand does not have the length its length operand states (30_encoding.md R74; log entry 5). -/
  | operandLength
  deriving DecidableEq, Repr

/-- One row of spec/opcode_table.json: an opcode `op` is of the row iff `op &&& mask = pattern`. -/
structure OpcodeRow where
  mnemonic : String
  pattern : Byte
  mask : Byte
  deriving DecidableEq, Repr

/-- spec/opcode_table.json, row by row, in its order. -/
def opcodeTable : List OpcodeRow :=
  [ ⟨"FEED", 0x01, 0xFF⟩,
    ⟨"ENCODE", 0x02, 0xFF⟩,
    ⟨"SEND_ACTION", 0x03, 0xFF⟩,
    ⟨"TS_SPLIT", 0x04, 0xFF⟩,
    ⟨"TS_JOIN", 0x05, 0xFF⟩,
    ⟨"READ_STATUS", 0x06, 0xFF⟩,
    ⟨"SOFT_RESET", 0x07, 0xFF⟩,
    ⟨"RESERVED", 0x00, 0xFF⟩,
    ⟨"RESERVED", 0x08, 0xF8⟩,
    ⟨"RESERVED", 0x10, 0xF0⟩,
    ⟨"RESERVED", 0x20, 0xE0⟩,
    ⟨"RESERVED", 0x40, 0xC0⟩,
    ⟨"RESERVED", 0x80, 0x80⟩ ]

/-- Whether an opcode is of a row. -/
def OpcodeRow.covers (r : OpcodeRow) (op : Byte) : Bool := op &&& r.mask == r.pattern

/-- The rows of the table an opcode is of. -/
def rowsOf (op : Byte) : List OpcodeRow := opcodeTable.filter (fun r => r.covers op)

/-- The byte operand of a command: the bytes on `in_data`, which are `cmd_len` many (30_encoding.md R74;
70_reset_and_hazards.md R252); a record with another number of bytes is no command (log entry 5). -/
def byteOperand (c : Command) : Except DecodeError Bytes :=
  if c.data.length = c.len.toNat then .ok c.data else .error .operandLength

/-- Decoding, total on every opcode byte (30_encoding.md R72, R73). -/
def decode (c : Command) : Except DecodeError Instr :=
  if c.op = 0x01#8 then
    match byteOperand c with
    | .ok chunk => .ok (.feed chunk)
    | .error e => .error e
  else if c.op = 0x02#8 then
    match byteOperand c with
    | .ok payload => .ok (.encode c.mtype c.ts payload)
    | .error e => .error e
  else if c.op = 0x03#8 then .ok (.sendAction c.user c.keys)
  else if c.op = 0x04#8 then .ok (.tsSplit c.ts)
  else if c.op = 0x05#8 then .ok (.tsJoin c.hi c.lo)
  else if c.op = 0x06#8 then .ok .readStatus
  else if c.op = 0x07#8 then .ok .softReset
  else if c.op = 0x00#8 then .ok .reserved00
  else if c.op &&& 0xF8#8 = 0x08#8 then .ok (.reserved08 (c.op.extractLsb' 0 3))
  else if c.op &&& 0xF0#8 = 0x10#8 then .ok (.reserved10 (c.op.extractLsb' 0 4))
  else if c.op &&& 0xE0#8 = 0x20#8 then .ok (.reserved20 (c.op.extractLsb' 0 5))
  else if c.op &&& 0xC0#8 = 0x40#8 then .ok (.reserved40 (c.op.extractLsb' 0 6))
  else .ok (.reserved80 (c.op.extractLsb' 0 7))

/-- Encoding: the opcode of the command's row and its operands on their ports; the ports of other commands' operands
carry zeros, which no decoding reads (30_encoding.md R72; log entry 6). -/
def encode : Instr → Command
  | .feed chunk =>
    { Command.blank 0x01 with len := BitVec.ofNat 32 chunk.length, data := chunk }
  | .encode mtype ts payload =>
    { Command.blank 0x02 with
      mtype := mtype, ts := ts, len := BitVec.ofNat 32 payload.length, data := payload }
  | .sendAction userId keys => { Command.blank 0x03 with user := userId, keys := keys }
  | .tsSplit ts => { Command.blank 0x04 with ts := ts }
  | .tsJoin hi lo => { Command.blank 0x05 with hi := hi, lo := lo }
  | .readStatus => Command.blank 0x06
  | .softReset => Command.blank 0x07
  | .reserved00 => Command.blank 0x00
  | .reserved08 o => Command.blank (0b00001#5 ++ o)
  | .reserved10 o => Command.blank (0b0001#4 ++ o)
  | .reserved20 o => Command.blank (0b001#3 ++ o)
  | .reserved40 o => Command.blank (0b01#2 ++ o)
  | .reserved80 o => Command.blank (0b1#1 ++ o)

/-- A word of the opcode table on the command interface: its low byte is the opcode, and the operand ports are zero. -/
def tableCommand (w : Nat) : Command := Command.blank (BitVec.ofNat 8 w)

/-- The instruction the decoder reads from a word of the opcode table, which is one opcode byte (30_encoding.md R72:
"The opcode has no other fields"). -/
def decodeTableWord (nbits w : Nat) : Option Instr :=
  if w < 2 ^ nbits ∧ w < 2 ^ 8 then
    match decode (tableCommand w) with
    | .ok i => some i
    | .error _ => none
  else none

end Sys2Proof
end

