-- ==== Sys2Proof/Machine/State.lean ====
section
/-! DEFINITION. The state of the block (10_state.md R21), its outputs as logs (10_state.md R32), its inputs as data
(43_control.md R193), and the state after reset (10_state.md R34). -/

namespace Sys2Proof.Machine

/-- The decoder error state (10_state.md R21, R24). -/
inductive Derr where
  /-- `NONE`: the decoder is running. -/
  | none
  | malformedHeader
  | bufferOverflow
  | timestampRangeError
  deriving DecidableEq, Repr

/-- The reason of EncodeInvalidInput, returned with the command's result only (60_exceptions.md R204). -/
inductive EncodeReason where
  | length
  | timestamp
  deriving DecidableEq, Repr

/-- A Message (10_state.md R33). -/
structure Message where
  messageType : Byte
  timestamp : U64
  payload : Bytes
  deriving DecidableEq, Repr

/-- The result of a command (30_encoding.md R72); `none` is the empty result of SOFT_RESET and of a reserved opcode. -/
inductive Result where
  /-- FEED: `(msgs, err)`. -/
  | feed (msgs : List Message) (err : Bool)
  /-- ENCODE and SEND_ACTION: `(frame, err)`, and the reason of a refusal (60_exceptions.md R204). -/
  | frame (frame : Bytes) (err : Bool) (reason : Option EncodeReason)
  /-- TS_SPLIT: `(hi, lo)`. -/
  | split (hi lo : U32)
  /-- TS_JOIN: `ts`. -/
  | join (ts : U64)
  /-- READ_STATUS: `(STATUS, LEVEL)`. -/
  | status (status level : U32)
  | none
  deriving DecidableEq, Repr

/-- What one segment of the observation holds (10_state.md R32; 43_control.md R191). -/
structure Observation where
  msgLog : List Message
  txLog : Bytes
  results : List Result
  deriving DecidableEq, Repr

/-- What the outside world does to the block, one step each.  `nowMs` is the value of the `now_ms` input while the
command runs (60_exceptions.md R216; log entry 3). -/
inductive Input where
  /-- The host issues a command (43_control.md R193). -/
  | command (c : Command) (nowMs : U64)
  /-- The hardware reset input `rst`, between commands (70_reset_and_hazards.md R240). -/
  | rst
  /-- `rst` arrives while a command runs and ends it (70_reset_and_hazards.md R240).  `progress` says how far the command
  had come: the byte steps a FEED had taken, the bytes the encoder had sent (log entry 11). -/
  | commandCutByRst (c : Command) (nowMs : U64) (progress : Nat)
  deriving DecidableEq, Repr

/-- The pending buffer's contents: the bytes that hold a value, by address (20_memory.md R40). -/
abbrev Memory := List Host.Cell

/-- The state of the block.  `buf` .. `cmdErr` are the spec's state vector (10_state.md R21); `msgLog`, `txLog`,
`results` and `ended` are the observation, which no rule reads back (10_state.md R32); `inputs` and `nowMs` are inputs
(log entries 3, 4); `cfg` is the build, which no step changes (10_state.md R31; log entry 1). -/
structure State where
  /-- The build parameters. -/
  cfg : Config
  /-- The pending buffer. -/
  buf : Memory
  /-- The number of retained unread bytes, `0 .. BUF_CAP` (10_state.md R22). -/
  level : Nat
  /-- The decoder error state (10_state.md R24). -/
  derr : Derr
  /-- Sticky encoder invalid-input flag (10_state.md R25). -/
  encErr : Bool
  /-- Sticky illegal-command flag (10_state.md R26). -/
  cmdErr : Bool
  /-- Messages emitted in this segment, in order. -/
  msgLog : List Message
  /-- Bytes sent in this segment, in order. -/
  txLog : Bytes
  /-- Results of this segment's commands, in order. -/
  results : List Result
  /-- The segments that resets have ended, oldest first (43_control.md R191). -/
  ended : List Observation
  /-- The value of the input port `now_ms` (60_exceptions.md R216). -/
  nowMs : U64
  /-- Inputs not yet taken, oldest first (43_control.md R193). -/
  inputs : List Input
  deriving DecidableEq, Repr

/-- Why the machine stops.  Neither is an error of the spec: the spec's errors are sticky indications and the machine
goes on (60_exceptions.md R212).  Both are SAFE: no run from a state that meets `State.Inv` reaches one. -/
inductive Fault where
  /-- A read of `buf` outside `[0, level)`, where no byte holds a value (20_memory.md R41: "a specification fault").
  Raised by `bufRead`.  Safe. -/
  | bufReadOutsideLevel
  /-- BufAppend without its precondition `level < BUF_CAP` (20_memory.md R42).  Raised by `bufAppend`.  Safe. -/
  | bufAppendWhenFull
  deriving DecidableEq, Repr

/-- Why a step has no meaning. -/
inductive Refusal where
  /-- An instruction that has no meaning yet, by its mnemonic; raised by `exec`'s arms only.  Safe. -/
  | notModelled (mnemonic : String)
  /-- What stands on the command interface is no command of 30_encoding.md R72 (log entry 5).  Raised by `runInput`.
  Safe. -/
  | notACommand (e : DecodeError)
  deriving DecidableEq, Repr

/-- The current segment of the observation (10_state.md R32). -/
def State.observation (s : State) : Observation :=
  { msgLog := s.msgLog, txLog := s.txLog, results := s.results }

/-- The reset state of a block built with `c` (10_state.md R34): `buf` holds no value, and the model's own fields
`inputs`, `ended` and `nowMs` are as log entries 3, 4 and 9 say. -/
def State.fresh (c : Config) : State :=
  { cfg := c, buf := [], level := 0, derr := .none, encErr := false, cmdErr := false,
    msgLog := [], txLog := [], results := [], ended := [], nowMs := 0, inputs := [] }

/-- The machine right after reset (10_state.md R34), built with the spec's default parameters (log entry 2). -/
def State.reset : State := State.fresh Config.standard

end Sys2Proof.Machine
end

