-- ==== Sys2Proof/Machine/Flags.lean ====
section
/-! DEFINITION. The two status registers and the output dec_error, which are functions of the state (10_state.md R29, R30;
60_exceptions.md R208). -/

namespace Sys2Proof.Machine

/-- DEC_CODE (10_state.md R29). -/
def Derr.code : Derr → BitVec 2
  | .none => 0
  | .malformedHeader => 1
  | .bufferOverflow => 2
  | .timestampRangeError => 3

/-- `derr != NONE`. -/
def Derr.isError : Derr → Bool
  | .none => false
  | .malformedHeader => true
  | .bufferOverflow => true
  | .timestampRangeError => true

/-- A flag as a 32-bit value, for the fields of STATUS. -/
def bit32 (b : Bool) : U32 := if b then 1 else 0

/-- STATUS (10_state.md R29): `zext_32(cmd_err << 4 | enc_err << 3 | code << 1 | (derr != NONE))` (43_control.md R190). -/
def statusReg (s : State) : U32 :=
  (bit32 s.cmdErr <<< 4) ||| (bit32 s.encErr <<< 3) ||| (s.derr.code.setWidth 32 <<< 1) |||
    bit32 s.derr.isError

/-- LEVEL: `zext_32(level)` (10_state.md R30). -/
def levelReg (s : State) : U32 := BitVec.ofNat 32 s.level

/-- The output `dec_error`, equal to STATUS.DEC_ERR (60_exceptions.md R208). -/
def decError (s : State) : Bool := (statusReg s).getLsbD 0

/-- The read cursor: 0 at every point between byte steps, and no state element (10_state.md R23, R34). -/
def readCursor (_ : State) : Nat := 0

end Sys2Proof.Machine
end

