-- ==== Sys2Proof/Machine/Operands.lean ====
section
/-! DEFINITION. The operand and wire forms of the frame codec: big-endian words (00_scope.md R13), the timestamp split
and join (40_codec.md R100, R101), the header (40_codec.md R104, R105, R106), the action payload (42_encoder.md R163) and
the encoder's two segments (42_encoder.md R161). -/

namespace Sys2Proof.Machine

/-- Four bytes, most significant first, as a `u32` (00_scope.md R13). -/
def wordOf (b0 b1 b2 b3 : Byte) : U32 := b0 ++ b1 ++ b2 ++ b3

/-- `be32(s, i)` (00_scope.md R13); no value when `s` does not hold the four bytes at offset `i`. -/
def be32 (s : Bytes) (i : Nat) : Option U32 :=
  match s.drop i with
  | b0 :: b1 :: b2 :: b3 :: _ => some (wordOf b0 b1 b2 b3)
  | _ => none

/-- `u32be(v)` (00_scope.md R13). -/
def u32be (v : U32) : Bytes :=
  [v.extractLsb' 24 8, v.extractLsb' 16 8, v.extractLsb' 8 8, v.extractLsb' 0 8]

/-- `ts[63:32]` (40_codec.md R100). -/
def tsHi (ts : U64) : U32 := ts.extractLsb' 32 32

/-- `ts[31:0]` (40_codec.md R100). -/
def tsLo (ts : U64) : U32 := ts.extractLsb' 0 32

/-- `hi * 2^32 + lo`, which is `hi ++ lo` as a `u64` (40_codec.md R101). -/
def tsJoin (hi lo : U32) : U64 := hi ++ lo

/-- A header's fields (30_encoding.md R61). -/
structure Header where
  mtype : Byte
  fl : U32
  hi : U32
  lo : U32
  deriving DecidableEq, Repr

/-- PackHeader: 13 bytes (40_codec.md R104). -/
def packHeader (mtype : Byte) (fl hi lo : U32) : Bytes :=
  [mtype] ++ u32be fl ++ u32be hi ++ u32be lo

/-- UnpackHeader (40_codec.md R105); no value when `s` has fewer than 13 bytes. -/
def unpackHeader (s : Bytes) : Option Header :=
  match s[0]?, be32 s 1, be32 s 5, be32 s 9 with
  | some t, some fl, some hi, some lo => some { mtype := t, fl := fl, hi := hi, lo := lo }
  | _, _, _, _ => none

/-- PeekLength: the frameLength of the frame that `s` starts (40_codec.md R106); no value before the 5-byte length
prefix is present. -/
def peekLength (s : Bytes) : Option U32 := be32 s 1

/-- Key bits of `keys` and of actionBits (30_encoding.md R70, R72). -/
def keyUp : BitVec 5 := 0b00001

/-- DOWN, bit 1 (30_encoding.md R70). -/
def keyDown : BitVec 5 := 0b00010

/-- LEFT, bit 2 (30_encoding.md R70). -/
def keyLeft : BitVec 5 := 0b00100

/-- RIGHT, bit 3 (30_encoding.md R70). -/
def keyRight : BitVec 5 := 0b01000

/-- BOMB, bit 4 (30_encoding.md R70). -/
def keyBomb : BitVec 5 := 0b10000

/-- `zext_8(keys)`: bits 7:5 are 0 (42_encoder.md R163). -/
def actionBits (keys : BitVec 5) : Byte := keys.setWidth 8

/-- ActionPayload: 5 bytes (42_encoder.md R163; 30_encoding.md R69). -/
def actionPayload (userId : U32) (keys : BitVec 5) : Bytes := u32be userId ++ [actionBits keys]

/-- The header segment `frame[0 .. 13)` (42_encoder.md R161). -/
def headerSegment (frame : Bytes) : Bytes := frame.take headerSize

/-- The payload segment `frame[13 .. 13 + L)` (42_encoder.md R161). -/
def payloadSegment (frame : Bytes) : Bytes := frame.drop headerSize

/-- The pseudo-operation `ENCODE2 mtype, ts, payload`: it expands to ENCODE with the same operands (30_encoding.md R76). -/
def encode2 (mtype : Byte) (ts : U64) (payload : Bytes) : Instr := .encode mtype ts payload

/-- The frame of `(mtype, ts, payload)`, or why it is refused: length first, then timestamp (42_encoder.md R160;
60_exceptions.md R211).  It depends on the operands and `MAX_FRAME_LEN` alone (42_encoder.md R162).  The sum `8 + L` is
taken without wrap-around (00_scope.md R11). -/
def encodeFrame (maxFrameLen : Nat) (mtype : Byte) (ts : U64) (payload : Bytes) :
    Except EncodeReason Bytes :=
  if 8 + payload.length > maxFrameLen then .error .length
  else if ts.toNat ≥ tsLimit then .error .timestamp
  else .ok (packHeader mtype (BitVec.ofNat 32 (8 + payload.length)) (tsHi ts) (tsLo ts) ++ payload)

end Sys2Proof.Machine
end

