-- ==== Sys2Proof/Machine/Ops.lean ====
section
/-! DEFINITION. The shared operations: the pending buffer (20_memory.md R41, R42, R43), the outputs emit and send and
the command result (00_scope.md R14; 10_state.md R32), the error entry (60_exceptions.md R204, R205, R206) and the reset,
which is the only way back from an error (60_exceptions.md R213; 70_reset_and_hazards.md R240). -/

namespace Sys2Proof.Machine

/-- What an address of `buf` that nothing has written reads as: no value (10_state.md R21: "a model must not give them
one"; log entry 7). -/
def unlistedByte : Option Byte := none

/-- The byte at an address of the pending buffer. -/
def Memory.read : Memory → Nat → Option Byte
  | [], _ => unlistedByte
  | (k, v) :: m, a => if k = a then some v else Memory.read m a

/-- The pending buffer with the byte at an address set, in canonical form. -/
def Memory.write : Memory → Nat → Byte → Memory
  | [], a, b => [(a, b)]
  | (k, v) :: m, a, b =>
    if a < k then (a, b) :: (k, v) :: m
    else if a = k then (a, b) :: m
    else (k, v) :: Memory.write m a b

/-- Whether every address of a buffer is above `k`. -/
def Memory.above (k : Nat) : Memory → Bool
  | [] => true
  | (a, _) :: m => decide (k < a) && Memory.above k m

/-- The canonical form: addresses strictly rising, and no entry equal to what an unlisted address reads as. -/
def Memory.wf : Memory → Bool
  | [] => true
  | (k, v) :: m => Memory.above k m && decide (some v ≠ unlistedByte) && Memory.wf m

/-- The bytes at `n` addresses from `i`, where all of them hold a value. -/
def Memory.readRange (m : Memory) : Nat → Nat → Option Bytes
  | _, 0 => some []
  | i, n + 1 =>
    match Memory.read m i, Memory.readRange m (i + 1) n with
    | some b, some bs => some (b :: bs)
    | _, _ => none

/-- `BufRead(i, n)`: `buf[i .. i+n)`, defined only when `i + n <= level` (20_memory.md R41). -/
def bufRead (i n : Nat) (s : State) : Except Fault Bytes :=
  if i + n ≤ s.level then
    match Memory.readRange s.buf i n with
    | some bs => .ok bs
    | none => .error .bufReadOutsideLevel
  else .error .bufReadOutsideLevel

/-- `BufAppend(b)`: precondition `level < BUF_CAP`; `buf[level] <- b`, then `level <- level + 1` (20_memory.md R42). -/
def bufAppend (b : Byte) (s : State) : Except Fault State :=
  if s.level < s.cfg.bufCap then
    .ok { s with buf := Memory.write s.buf s.level b, level := s.level + 1 }
  else .error .bufAppendWhenFull

/-- `BufDrop()`: `level <- 0`, and no byte of `buf` holds a value (20_memory.md R43; 10_state.md R21). -/
def bufDrop (s : State) : State := { s with buf := [], level := 0 }

/-- `emit(m)` (00_scope.md R14). -/
def emit (m : Message) (s : State) : State := { s with msgLog := s.msgLog ++ [m] }

/-- `send(bs)` (00_scope.md R14). -/
def send (bs : Bytes) (s : State) : State := { s with txLog := s.txLog ++ bs }

/-- A command returns its result (10_state.md R32; 30_encoding.md R72). -/
def pushResult (r : Result) (s : State) : State := { s with results := s.results ++ [r] }

/-- The errors of 60_exceptions.md R200. -/
inductive Error where
  | malformedHeader
  | bufferOverflow
  | timestampRangeError
  | encodeInvalidInput (reason : EncodeReason)
  | illegalCommand
  deriving DecidableEq, Repr

/-- A decoder error's entry sets `derr` only when it is NONE (60_exceptions.md R206, R214). -/
def raiseDecoder (e : Derr) (s : State) : State :=
  if s.derr = .none then { s with derr := e } else s

/-- `raise <Error>(info)`: the error entry (60_exceptions.md R204, R205, R206).  It saves nothing else and transfers no
control (60_exceptions.md R212). -/
def raise (e : Error) (s : State) : State :=
  match e with
  | .malformedHeader => raiseDecoder .malformedHeader s
  | .bufferOverflow => raiseDecoder .bufferOverflow s
  | .timestampRangeError => raiseDecoder .timestampRangeError s
  | .encodeInvalidInput _ => { s with encErr := true }
  | .illegalCommand => { s with cmdErr := true }

/-- `Reset()` (70_reset_and_hazards.md R240): every state element to its value of 10_state.md R34.  The observation
starts a new segment and the ended one is kept (43_control.md R191; log entry 9).  The build and the inputs are not state
elements and stay. -/
def resetBlock (s : State) : State :=
  { State.fresh s.cfg with
    ended := s.ended ++ [s.observation], nowMs := s.nowMs, inputs := s.inputs }

/-- The bytes that are retained, in address order: `buf[0 .. level)` where `State.Inv` holds. -/
def retained (s : State) : Bytes := s.buf.map Prod.snd

end Sys2Proof.Machine
end

