-- ==== Sys2Proof/Machine/Codec.lean ====
section
/-! DEFINITION. The meanings of TS_SPLIT and TS_JOIN (40_codec.md R100, R101, R103). -/

namespace Sys2Proof.Machine

/-- TS_SPLIT (40_codec.md R100). -/
def execTsSplit (ts : U64) (s : State) : Host.Outcome State Fault Refusal :=
  .next (pushResult (.split (tsHi ts) (tsLo ts)) s)

/-- TS_JOIN (40_codec.md R101). -/
def execTsJoin (hi lo : U32) (s : State) : Host.Outcome State Fault Refusal :=
  .next (pushResult (.join (tsJoin hi lo)) s)

end Sys2Proof.Machine
end

