-- ==== Sys2Proof/Machine/Control.lean ====
section
/-! DEFINITION. The meanings of READ_STATUS, SOFT_RESET and the reserved opcodes (43_control.md R190, R191, R192). -/

namespace Sys2Proof.Machine

/-- READ_STATUS (43_control.md R190). -/
def execReadStatus (s : State) : Host.Outcome State Fault Refusal :=
  .next (pushResult (.status (statusReg s) (levelReg s)) s)

/-- SOFT_RESET (43_control.md R191): its empty result belongs to the segment it ends (log entry 9). -/
def execSoftReset (s : State) : Host.Outcome State Fault Refusal :=
  .next (resetBlock (pushResult .none s))

/-- ILLEGAL(op): IllegalCommand is raised and the result is empty (43_control.md R192). -/
def illegalCommand (s : State) : State := pushResult .none (raise .illegalCommand s)

/-- Reserved opcode 0x00 (43_control.md R192). -/
def execReserved00 (s : State) : Host.Outcome State Fault Refusal := .next (illegalCommand s)

/-- Reserved opcodes 0x08..0x0F (43_control.md R192). -/
def execReserved08 (_ : BitVec 3) (s : State) : Host.Outcome State Fault Refusal :=
  .next (illegalCommand s)

/-- Reserved opcodes 0x10..0x1F (43_control.md R192). -/
def execReserved10 (_ : BitVec 4) (s : State) : Host.Outcome State Fault Refusal :=
  .next (illegalCommand s)

/-- Reserved opcodes 0x20..0x3F (43_control.md R192). -/
def execReserved20 (_ : BitVec 5) (s : State) : Host.Outcome State Fault Refusal :=
  .next (illegalCommand s)

/-- Reserved opcodes 0x40..0x7F (43_control.md R192). -/
def execReserved40 (_ : BitVec 6) (s : State) : Host.Outcome State Fault Refusal :=
  .next (illegalCommand s)

/-- Reserved opcodes 0x80..0xFF (43_control.md R192). -/
def execReserved80 (_ : BitVec 7) (s : State) : Host.Outcome State Fault Refusal :=
  .next (illegalCommand s)

end Sys2Proof.Machine
end

