-- ==== Sys2Proof/Machine/FrameEncoder.lean ====
section
/-! DEFINITION. The meanings of ENCODE and SEND_ACTION (42_encoder.md R160, R164). -/

namespace Sys2Proof.Machine

/-- The encoder's work on one message (42_encoder.md R160): on success the frame is sent and returned; on a refusal
EncodeInvalidInput is raised, no byte is sent and `([], 1)` is returned with the reason (60_exceptions.md R204). -/
def runEncoder (mtype : Byte) (ts : U64) (payload : Bytes) (s : State) : State :=
  match encodeFrame s.cfg.maxFrameLen mtype ts payload with
  | .error r => pushResult (.frame [] true (some r)) (raise (.encodeInvalidInput r) s)
  | .ok frame => pushResult (.frame frame false none) (send frame s)

/-- ENCODE (42_encoder.md R160). -/
def execEncode (mtype : Byte) (ts : U64) (payload : Bytes) (s : State) :
    Host.Outcome State Fault Refusal :=
  .next (runEncoder mtype ts payload s)

/-- SEND_ACTION (42_encoder.md R164): `now_ms` is sampled once, and the ENCODE of the action payload follows. -/
def execSendAction (userId : U32) (keys : BitVec 5) (s : State) :
    Host.Outcome State Fault Refusal :=
  .next (runEncoder s.cfg.actionMsgType s.nowMs (actionPayload userId keys) s)

end Sys2Proof.Machine
end

