-- ==== Sys2Proof/Machine/StreamDecoder.lean ====
section
/-! DEFINITION. The byte step ACCEPT_BYTE (41_decoder.md R121) and the meaning of FEED (41_decoder.md R122). -/

namespace Sys2Proof.Machine

/-- `be32(buf, 1)`: the head frame's length field (41_decoder.md R120). -/
def headLength (s : State) : Except Fault U32 :=
  match bufRead 1 4 s with
  | .error f => .error f
  | .ok bs =>
    match be32 bs 0 with
    | some fl => .ok fl
    | none => .error .bufReadOutsideLevel

/-- The length check of ACCEPT_BYTE, made when the length prefix is complete: whether MalformedHeader is raised
(41_decoder.md R121; 60_exceptions.md R201). -/
def headMalformed (s : State) : Except Fault Bool :=
  if s.level = lengthPrefixSize then
    match headLength s with
    | .error f => .error f
    | .ok hfl => .ok (decide (hfl.toNat < tsSize) || decide (hfl.toNat > s.cfg.maxFrameLen))
  else .ok false

/-- Whether the head frame just became complete (41_decoder.md R121, R120). -/
def headComplete (s : State) : Except Fault Bool :=
  if s.level ≥ headerSize then
    match headLength s with
    | .error f => .error f
    | .ok fl => .ok (decide (s.level = lengthPrefixSize + fl.toNat))
  else .ok false

/-- The consumption of a complete head frame: the range check, then the Message and the compaction (41_decoder.md R121;
60_exceptions.md R203; 20_memory.md R43, R57).  It returns the Messages emitted. -/
def consumeFrame (s : State) : Except Fault (State × List Message) :=
  match bufRead 0 headerSize s with
  | .error f => .error f
  | .ok hb =>
    match unpackHeader hb with
    | none => .error .bufReadOutsideLevel
    | some h =>
      if h.hi.toNat ≥ tsHiLimit then .ok (raise .timestampRangeError s, [])
      else
        match bufRead headerSize (h.fl.toNat - tsSize) s with
        | .error f => .error f
        | .ok payload =>
          let m : Message :=
            { messageType := h.mtype, timestamp := tsJoin h.hi h.lo, payload := payload }
          .ok (bufDrop (emit m s), [m])

/-- The checks of ACCEPT_BYTE after the byte is stored (41_decoder.md R121). -/
def afterAppend (s : State) : Except Fault (State × List Message) :=
  match headMalformed s with
  | .error f => .error f
  | .ok true => .ok (raise .malformedHeader s, [])
  | .ok false =>
    match headComplete s with
    | .error f => .error f
    | .ok true => consumeFrame s
    | .ok false => .ok (s, [])

/-- ACCEPT_BYTE(b) (41_decoder.md R121): the next state and the Messages emitted, none or one. -/
def acceptByte (b : Byte) (s : State) : Except Fault (State × List Message) :=
  if s.derr ≠ .none then .ok (s, [])
  else if s.level = s.cfg.bufCap then .ok (raise .bufferOverflow s, [])
  else
    match bufAppend b s with
    | .error f => .error f
    | .ok s1 => afterAppend s1

/-- The byte steps of a chunk, in chunk order, with the Messages emitted (41_decoder.md R122). -/
def feedBytes : Bytes → State → Except Fault (State × List Message)
  | [], s => .ok (s, [])
  | b :: bs, s =>
    match acceptByte b s with
    | .error f => .error f
    | .ok (s1, ms1) =>
      match feedBytes bs s1 with
      | .error f => .error f
      | .ok (s2, ms2) => .ok (s2, ms1 ++ ms2)

/-- FEED (41_decoder.md R122): `err = (derr != NONE)` after the last byte. -/
def execFeed (chunk : Bytes) (s : State) : Host.Outcome State Fault Refusal :=
  match feedBytes chunk s with
  | .error f => .fault f
  | .ok (s1, ms) => .next (pushResult (.feed ms s1.derr.isError) s1)

end Sys2Proof.Machine
end

