-- ==== Sys2Proof/Machine/Dispatch.lean ====
section
/-! DEFINITION. The meaning of every command, one arm per constructor of Instr (30_encoding.md R72, R73). -/

namespace Sys2Proof.Machine

def exec (i : Instr) (s : State) : Host.Outcome State Fault Refusal :=
  match i with
  | .feed chunk => Sys2Proof.Machine.execFeed chunk s
  | .encode mtype ts payload => Sys2Proof.Machine.execEncode mtype ts payload s
  | .sendAction userId keys => Sys2Proof.Machine.execSendAction userId keys s
  | .tsSplit ts => Sys2Proof.Machine.execTsSplit ts s
  | .tsJoin hi lo => Sys2Proof.Machine.execTsJoin hi lo s
  | .readStatus => Sys2Proof.Machine.execReadStatus s
  | .softReset => Sys2Proof.Machine.execSoftReset s
  | .reserved00 => Sys2Proof.Machine.execReserved00 s
  | .reserved08 o => Sys2Proof.Machine.execReserved08 o s
  | .reserved10 o => Sys2Proof.Machine.execReserved10 o s
  | .reserved20 o => Sys2Proof.Machine.execReserved20 o s
  | .reserved40 o => Sys2Proof.Machine.execReserved40 o s
  | .reserved80 o => Sys2Proof.Machine.execReserved80 o s

end Sys2Proof.Machine
end

