-- ==== Sys2Proof/Machine/FrontEnd.lean ====
section
/-! DEFINITION. The command front end (10_state.md R20; 43_control.md R193), the hardware reset input
(70_reset_and_hazards.md R240), and a sequence of commands run one after another. -/

namespace Sys2Proof.Machine

/-- What a command that `rst` cuts short has already output: the Messages of the byte steps a FEED had taken, the bytes
the encoder had sent; the other commands output nothing (70_reset_and_hazards.md R240; log entry 11). -/
def outputSoFar (i : Instr) (progress : Nat) (s : State) : Except Fault State :=
  match i with
  | .feed chunk =>
    match feedBytes (chunk.take progress) s with
    | .error f => .error f
    | .ok (s1, _) => .ok s1
  | .encode mtype ts payload =>
    match encodeFrame s.cfg.maxFrameLen mtype ts payload with
    | .error _ => .ok s
    | .ok frame => .ok (send (frame.take progress) s)
  | .sendAction userId keys =>
    match encodeFrame s.cfg.maxFrameLen s.cfg.actionMsgType s.nowMs (actionPayload userId keys) with
    | .error _ => .ok s
    | .ok frame => .ok (send (frame.take progress) s)
  | .tsSplit _ => .ok s
  | .tsJoin _ _ => .ok s
  | .readStatus => .ok s
  | .softReset => .ok s
  | .reserved00 => .ok s
  | .reserved08 _ => .ok s
  | .reserved10 _ => .ok s
  | .reserved20 _ => .ok s
  | .reserved40 _ => .ok s
  | .reserved80 _ => .ok s

/-- `rst` during a command: the command ends with no result, what it had output stays in the segment that ends, and its
other effects are discarded by the reset (70_reset_and_hazards.md R240). -/
def cutByReset (i : Instr) (progress : Nat) (s : State) : Host.Outcome State Fault Refusal :=
  match outputSoFar i progress s with
  | .error f => .fault f
  | .ok s1 => .next (resetBlock s1)

/-- One input (43_control.md R193; 70_reset_and_hazards.md R240). -/
def runInput (x : Input) (s : State) : Host.Outcome State Fault Refusal :=
  match x with
  | .command c nowMs =>
    match decode c with
    | .ok i => exec i { s with nowMs := nowMs }
    | .error e => .refused (.notACommand e)
  | .rst => .next (resetBlock s)
  | .commandCutByRst c nowMs progress =>
    match decode c with
    | .ok i => cutByReset i progress { s with nowMs := nowMs }
    | .error e => .refused (.notACommand e)

/-- Take the oldest input and run it to completion; with none, the block waits (43_control.md R193;
70_reset_and_hazards.md R242). -/
def takeInput (s : State) : Host.Outcome State Fault Refusal :=
  match s.inputs with
  | [] => .next s
  | x :: rest => runInput x { s with inputs := rest }

/-- A word of the opcode table as the next input: the command with that opcode and zeros on the operand ports, at the
present `now_ms`. -/
def placeWord (w : Nat) (s : State) : State :=
  { s with inputs := .command (tableCommand w) s.nowMs :: s.inputs }

/-- Commands run one after another, each to completion (43_control.md R193). -/
def execSeq : List Instr → State → Host.Outcome State Fault Refusal
  | [], s => .next s
  | i :: is, s =>
    match exec i s with
    | .next s1 => execSeq is s1
    | .fault f => .fault f
    | .refused r => .refused r

end Sys2Proof.Machine
end

