-- ==== Sys2Proof/Machine/Step.lean ====
section
/-! DEFINITION. One step of the block: the oldest input is taken and run to completion (43_control.md R193). -/

namespace Sys2Proof.Machine

/-- One step (`takeInput`). -/
def step (s : State) : Host.Outcome State Fault Refusal := takeInput s

/-- `s` with the table word `w` as the command the next step takes (log entry 4). -/
def State.withFetchWord (s : State) (_nbits w : Nat) : State := placeWord w s

end Sys2Proof.Machine
end

