-- ==== Sys2Proof/Machine/ChunkReference.lean ====
section
/-! DEFINITION. BMAN's chunk algorithm FEED_BMAN, the reference of 41_decoder.md R123; no command runs it. -/

namespace Sys2Proof.Machine

/-- Step 2 of FEED_BMAN at a cursor: the Messages parsed and the final cursor.  Each round moves the cursor by at least
5, so `fuel = len(pending)` rounds are enough.  For `fl < 8` two points are the model's own (DESIGN CHOICE, log entry 18):
where a read would run beyond `pending` the loop stops, and where the reads stay within it the payload slice
`pending[cursor+13 .. cursor+5+fl)`, whose length would be negative, is `[]` and the loop goes on. -/
def bmanLoop (pending : Bytes) : Nat → Nat → List Message × Nat
  | 0, cursor => ([], cursor)
  | fuel + 1, cursor =>
    match be32 pending (cursor + 1) with
    | none => ([], cursor)
    | some fl =>
      if pending.length - cursor < 5 + fl.toNat then ([], cursor)
      else
        match pending[cursor]?, be32 pending (cursor + 5), be32 pending (cursor + 9) with
        | some t, some hi, some lo =>
          let m : Message :=
            { messageType := t, timestamp := tsJoin hi lo,
              payload := (pending.take (cursor + 5 + fl.toNat)).drop (cursor + 13) }
          let (out, last) := bmanLoop pending fuel (cursor + 5 + fl.toNat)
          (m :: out, last)
        | _, _, _ => ([], cursor)

/-- FEED_BMAN on the retained bytes and a chunk: the Messages and the compacted pending bytes (41_decoder.md R123). -/
def feedBman (kept chunk : Bytes) : List Message × Bytes :=
  let pending := kept ++ chunk
  let (out, cursor) := bmanLoop pending pending.length 0
  (out, pending.drop cursor)

end Sys2Proof.Machine
end

