-- ==== Sys2Proof/Machine/Ports.lean ====
section
/-! DEFINITION. The outputs of 70_reset_and_hazards.md R252 that are functions of the observation: a Message's header
beat and payload bytes (92_eei_decisions.md D25), and the encoder's bytes with `tx_seg` (42_encoder.md R161). -/

namespace Sys2Proof.Machine

/-- One Message header beat: `msg_type`, `msg_ts`, `msg_len` (70_reset_and_hazards.md R252). -/
structure MsgHeaderBeat where
  msgType : Byte
  msgTs : U64
  msgLen : U32
  deriving DecidableEq, Repr

/-- The header beat of a Message; `msg_len` is its payload's length (70_reset_and_hazards.md R252). -/
def msgHeaderBeat (m : Message) : MsgHeaderBeat :=
  { msgType := m.messageType, msgTs := m.timestamp, msgLen := BitVec.ofNat 32 m.payload.length }

/-- The `msg_data` bytes after the header beat (70_reset_and_hazards.md R252). -/
def msgPayloadBeats (m : Message) : Bytes := m.payload

/-- One byte on `tx_data` with its `tx_seg` (70_reset_and_hazards.md R252). -/
structure TxBeat where
  txData : Byte
  txSeg : Bool
  deriving DecidableEq, Repr

/-- The tx beats of one frame: 0 for header bytes, 1 for payload bytes, the header first (42_encoder.md R161). -/
def txBeats (frame : Bytes) : List TxBeat :=
  (headerSegment frame).map (fun b => { txData := b, txSeg := false }) ++
    (payloadSegment frame).map (fun b => { txData := b, txSeg := true })

/-- The bytes a command's result says it sent. -/
def Result.sent : Result → Bytes
  | .feed _ _ => []
  | .frame bytes _ _ => bytes
  | .split _ _ => []
  | .join _ => []
  | .status _ _ => []
  | .none => []

/-- The Messages a command's result says it emitted. -/
def Result.emitted : Result → List Message
  | .feed msgs _ => msgs
  | .frame _ _ _ => []
  | .split _ _ => []
  | .join _ => []
  | .status _ _ => []
  | .none => []

/-- The tx port's beats in this segment, in `tx_log` order. -/
def txPort (s : State) : List TxBeat := (s.results.map (fun r => txBeats r.sent)).flatten

end Sys2Proof.Machine
end

