-- ==== Sys2Proof/Safety.lean ====
section
/-! DEFINITION. The invariants of the block, and what a safe run is. -/

namespace Sys2Proof.Machine

/-- A frameLength that spells a frame: `8 <= fl <= MAX_FRAME_LEN` (30_encoding.md R63). -/
def legalLength (c : Config) (fl : U32) : Bool :=
  decide (tsSize ≤ fl.toNat) && decide (fl.toNat ≤ c.maxFrameLen)

/-- What the retained bytes are in each decoder state.  Running: an incomplete head frame whose length, once known, is
legal (10_state.md R22).  In an error state: what the error entry froze (60_exceptions.md R201, R202, R203, R206). -/
def headFrameOk (s : State) : Bool :=
  match s.derr with
  | .none =>
    decide (s.level < lengthPrefixSize) ||
      (match peekLength (retained s) with
        | some fl => legalLength s.cfg fl && decide (s.level < lengthPrefixSize + fl.toNat)
        | none => false)
  | .malformedHeader =>
    decide (s.level = lengthPrefixSize) &&
      (match peekLength (retained s) with
        | some fl => !legalLength s.cfg fl
        | none => false)
  | .bufferOverflow =>
    decide (s.level = s.cfg.bufCap) &&
      (match peekLength (retained s) with
        | some fl => legalLength s.cfg fl && decide (s.cfg.bufCap < lengthPrefixSize + fl.toNat)
        | none => false)
  | .timestampRangeError =>
    match unpackHeader (retained s) with
    | some h =>
      legalLength s.cfg h.fl && decide (s.level = lengthPrefixSize + h.fl.toNat) &&
        decide (tsHiLimit ≤ h.hi.toNat)
    | none => false

/-- The block's invariant: the build is legal (00_scope.md R6, R7); exactly the addresses `0 .. level-1` of `buf` hold a
value (10_state.md R21), so `buf` is in canonical form; `level <= BUF_CAP` (20_memory.md R59); and the retained bytes are
as the decoder state says. -/
abbrev State.Inv (s : State) : Prop :=
  s.cfg.wf = true ∧ s.buf.map Prod.fst = List.range s.level ∧ s.level ≤ s.cfg.bufCap ∧
    headFrameOk s = true

/-- The logs are what the results of the segment's commands say, in command order (20_memory.md R54, R55). -/
abbrev State.LogsAgree (s : State) : Prop :=
  s.msgLog = (s.results.map Result.emitted).flatten ∧
    s.txLog = (s.results.map Result.sent).flatten

/-- A state in which no error of the spec has been recorded (93_implementation_defined.md I7, I9, I10: "a sticky error
the model records, and every claim assumes it absent"). -/
abbrev State.Clean (s : State) : Prop :=
  s.derr = .none ∧ s.encErr = false ∧ s.cmdErr = false

/-- What a reset leaves (10_state.md R34): each element of its table. -/
abbrev State.AtReset (s : State) : Prop :=
  s.buf = [] ∧ s.level = 0 ∧ readCursor s = 0 ∧ s.derr = .none ∧ s.encErr = false ∧
    s.cmdErr = false ∧ statusReg s = 0x00000000#32 ∧ levelReg s = 0x00000000#32 ∧
    s.msgLog = [] ∧ s.txLog = [] ∧ decError s = false

/-- Whether an input is a reset: the hardware reset, between commands or cutting one short, or SOFT_RESET
(70_reset_and_hazards.md R240). -/
def Input.resets : Input → Bool
  | .command c _ => c.op == 0x07#8
  | .rst => true
  | .commandCutByRst _ _ _ => true

/-- Whether the next step is a reset. -/
def State.resetNext (s : State) : Bool :=
  match s.inputs with
  | [] => false
  | x :: _ => x.resets

/-- Two states agree in the decoder's part: the build, `buf`, `level` and `derr` (41_decoder.md R134). -/
abbrev State.SameDecoder (s t : State) : Prop :=
  t.cfg = s.cfg ∧ t.buf = s.buf ∧ t.level = s.level ∧ t.derr = s.derr

end Sys2Proof.Machine
end

