-- ==== Sys2Proof/Certificates/Slice0/Obligations.lean ====
section
/-! DEFINITION. The statements for the provers, each a def Obligations.<Name> : Prop.  A command that answers is said to
answer by an equation of the whole next state, so that everything the equation does not name is said to be unchanged. -/

open Sys2Proof Sys2Proof.Machine

/-! ### Reset -/

/-- 10_state.md R34: the machine starts in the reset state, and SOFT_RESET and the hardware reset reach it from every
state; no byte of `buf` holds a value. -/
def Obligations.ResetLeavesTheStatedValues : Prop :=
  (State.reset.AtReset ∧ ∀ a, Memory.read State.reset.buf a = none) ∧
    (∀ s : State, ∃ t, exec .softReset s = .next t ∧ t.AtReset ∧
      ∀ a, Memory.read t.buf a = none) ∧
    (∀ s : State, ∃ t, runInput .rst s = .next t ∧ t.AtReset ∧ ∀ a, Memory.read t.buf a = none)

/-- 43_control.md R191.  SOFT_RESET answers in every state; the build, the inputs and the clock input stay; the logs the
host has read are kept as an ended segment.  That `ended` keeps them, and that SOFT_RESET's empty result stands in the
ended segment, is the model's choice (log entry 9). -/
def Obligations.SoftResetEndsTheSegmentAndResets : Prop :=
  (encode .softReset).op = 0x07#8 ∧
    ∀ s : State, ∃ t, exec .softReset s = .next t ∧ t.AtReset ∧ t.cfg = s.cfg ∧
      t.inputs = s.inputs ∧ t.nowMs = s.nowMs ∧ t.results = [] ∧
      t.ended = s.ended ++ [⟨s.msgLog, s.txLog, s.results ++ [.none]⟩]

/-- 70_reset_and_hazards.md R240, "two resets with identical effect": the hardware reset between commands gives what
SOFT_RESET gives, but for the result SOFT_RESET adds to the segment it ends (log entry 9). -/
def Obligations.HardwareResetActsAsSoftReset : Prop :=
  ∀ (s : State) (rest : List Input), s.inputs = .rst :: rest →
    ∃ t u, step s = .next t ∧ exec .softReset { s with inputs := rest } = .next u ∧
      t = { u with ended := t.ended } ∧ t.ended = s.ended ++ [⟨s.msgLog, s.txLog, s.results⟩]

/-- 70_reset_and_hazards.md R240: a hardware reset that arrives after `k` byte steps of a FEED ends it with no result; the
Messages those byte steps emitted stay in the segment that ended; everything else is at reset (log entry 11 says how
`k` is given). -/
def Obligations.ResetDuringFeedKeepsMessagesAlreadyOutput : Prop :=
  ∀ (s : State) (chunk : Bytes) (now : U64) (k : Nat) (rest : List Input),
    s.Inv → (Instr.feed chunk).wf = true →
    s.inputs = .commandCutByRst (encode (.feed chunk)) now k :: rest →
    ∃ t u, step s = .next t ∧ exec (.feed (chunk.take k)) s = .next u ∧ t.AtReset ∧
      t.cfg = s.cfg ∧ t.inputs = rest ∧ t.results = [] ∧
      t.ended = s.ended ++ [⟨u.msgLog, s.txLog, s.results⟩]

/-- 70_reset_and_hazards.md R240: a hardware reset that arrives when an ENCODE has sent `k` bytes ends it with no result;
those bytes stay in the segment that ended; everything else is at reset (log entry 11). -/
def Obligations.ResetDuringEncodeKeepsBytesAlreadySent : Prop :=
  ∀ (s : State) (m : Byte) (ts : U64) (p : Bytes) (now : U64) (k : Nat) (rest : List Input),
    (Instr.encode m ts p).wf = true →
    s.inputs = .commandCutByRst (encode (.encode m ts p)) now k :: rest →
    ∃ t r, step s = .next t ∧ t.AtReset ∧ t.cfg = s.cfg ∧ t.inputs = rest ∧ t.results = [] ∧
      exec (.encode m ts p) s =
        .next { s with
          txLog := s.txLog ++ Result.sent r, results := s.results ++ [r],
          encErr := s.encErr || decide (r.sent = []) } ∧
      t.ended = s.ended ++ [⟨s.msgLog, s.txLog ++ r.sent.take k, s.results⟩]

/-! ### The step and the command interface -/

/-- 43_control.md R193: when the oldest input is a command that decodes to `i`, a step runs `i`, with that input taken and
`now_ms` at the input's value while it runs.  The queue and the clock value beside each command are the model's (log
entries 3, 4). -/
def Obligations.StepRunsTheDecodedCommand : Prop :=
  ∀ (s : State) (c : Command) (now : U64) (rest : List Input) (i : Instr),
    s.inputs = .command c now :: rest → decode c = .ok i →
    step s = exec i { s with nowMs := now, inputs := rest }

/-- 43_control.md R193: a well-formed command put on the interface by `encode` is the command a step runs. -/
def Obligations.StepRunsTheEncodedCommand : Prop :=
  ∀ (s : State) (i : Instr) (now : U64) (rest : List Input), i.wf = true →
    s.inputs = .command (encode i) now :: rest →
    step s = exec i { s with nowMs := now, inputs := rest }

/-- 70_reset_and_hazards.md R242, "the block waits for its first command".  That a wait is a step that changes nothing is
the model's choice (log entry 4). -/
def Obligations.StepWithoutInputWaits : Prop :=
  step State.reset = .next State.reset ∧ ∀ s : State, s.inputs = [] → step s = .next s

/-- 43_control.md R193, 20_memory.md R56: a step takes exactly the oldest input, whatever the input is. -/
def Obligations.StepTakesTheOldestInputOnly : Prop :=
  ∀ (s t : State) (x : Input) (rest : List Input), s.inputs = x :: rest → step s = .next t →
    t.inputs = rest

/-- A value on the command interface whose byte operand has not its stated length is refused by name; that is the model's
choice (log entry 5).  Every other value decodes, to a well-formed command. -/
def Obligations.DecodeRefusesOnlyWrongOperandLength : Prop :=
  (∀ c : Command, c.op ≠ 0x01#8 ∧ c.op ≠ 0x02#8 ∨ c.data.length = c.len.toNat →
    ∃ i, decode c = .ok i ∧ i.wf = true) ∧
  (∀ (s : State) (c : Command) (now : U64) (rest : List Input),
    s.inputs = .command c now :: rest → (c.op = 0x01#8 ∨ c.op = 0x02#8) →
    c.data.length ≠ c.len.toNat → step s = .refused (.notACommand .operandLength))

/-- 30_encoding.md R72, R73: decoding the encoding of a well-formed command gives it back, all operands at every value. -/
def Obligations.DecodeOfEncodeIsTheCommand : Prop :=
  ∀ i : Instr, i.wf = true → decode (encode i) = .ok i

/-- 30_encoding.md R72, R73: a decoded command, encoded, has the opcode it was decoded from and, on the ports of its own
operands, the values it was decoded from. -/
def Obligations.EncodeOfDecodeKeepsOpcodeAndOperands : Prop :=
  ∀ (c : Command) (i : Instr), decode c = .ok i →
    (encode i).op = c.op ∧
      (c.op = 0x01#8 → (encode i).len = c.len ∧ (encode i).data = c.data) ∧
      (c.op = 0x02#8 → (encode i).mtype = c.mtype ∧ (encode i).ts = c.ts ∧
        (encode i).len = c.len ∧ (encode i).data = c.data) ∧
      (c.op = 0x03#8 → (encode i).user = c.user ∧ (encode i).keys = c.keys) ∧
      (c.op = 0x04#8 → (encode i).ts = c.ts) ∧
      (c.op = 0x05#8 → (encode i).hi = c.hi ∧ (encode i).lo = c.lo)

/-- spec/opcode_table.json: every opcode is of exactly one row, and what decodes from it has that row's mnemonic. -/
def Obligations.EveryOpcodeIsOfOneRow : Prop :=
  ∀ op : Byte, ∃ r, rowsOf op = [r] ∧
    ∀ (c : Command) (i : Instr), c.op = op → decode c = .ok i → i.mnemonic = r.mnemonic

/-- 30_encoding.md R72, R73: opcodes written out from the table decode to their commands. -/
def Obligations.SampleOpcodesDecode : Prop :=
  decode { Command.blank 0b00000001 with len := 2, data := [0xAB, 0xCD] } =
      .ok (.feed [0xAB, 0xCD]) ∧
    decode { Command.blank 0b00000010 with mtype := 5, ts := 7, len := 1, data := [0x10] } =
      .ok (.encode 5 7 [0x10]) ∧
    decode { Command.blank 0b00000011 with user := 42, keys := 0b01100 } =
      .ok (.sendAction 42 (keyLeft ||| keyRight)) ∧
    decode { Command.blank 0b00000101 with hi := 1, lo := 2 } = .ok (.tsJoin 1 2) ∧
    decode (Command.blank 0b00000111) = .ok .softReset ∧
    decode (Command.blank 0b11111111) = .ok (.reserved80 0b1111111)

/-! ### Frame codec -/

/-- 40_codec.md R100. -/
def Obligations.TsSplitFollowsItsRule : Prop :=
  ∀ (ts : U64) (s : State), (encode (.tsSplit ts)).op = 0x04#8 ∧
    ∃ hi lo : U32,
      exec (.tsSplit ts) s = .next { s with results := s.results ++ [.split hi lo] } ∧
      hi.toNat = ts.toNat / 2 ^ 32 ∧ lo.toNat = ts.toNat % 2 ^ 32

/-- 40_codec.md R101. -/
def Obligations.TsJoinFollowsItsRule : Prop :=
  ∀ (hi lo : U32) (s : State), (encode (.tsJoin hi lo)).op = 0x05#8 ∧
    ∃ ts : U64,
      exec (.tsJoin hi lo) s = .next { s with results := s.results ++ [.join ts] } ∧
      ts.toNat = hi.toNat * 2 ^ 32 + lo.toNat

/-- 40_codec.md R103: TS_SPLIT and TS_JOIN answer in every state, with a result that depends on the operands alone, and
write nothing. -/
def Obligations.CodecHoldsNoState : Prop :=
  ∀ i : Instr, ((∃ ts, i = .tsSplit ts) ∨ ∃ hi lo, i = .tsJoin hi lo) →
    ∃ r, ∀ s : State, exec i s = .next { s with results := s.results ++ [r] }

/-- 40_codec.md R102 (the spec marks it derived from R100 and R101): the two commands are inverse, both ways. -/
def Obligations.SplitAndJoinAreInverse : Prop :=
  (∀ (ts : U64) (s : State), ∃ hi lo t u,
    exec (.tsSplit ts) s = .next t ∧ t.results = s.results ++ [.split hi lo] ∧
    exec (.tsJoin hi lo) t = .next u ∧ u.results = t.results ++ [.join ts]) ∧
  (∀ (hi lo : U32) (s : State), ∃ ts t u,
    exec (.tsJoin hi lo) s = .next t ∧ t.results = s.results ++ [.join ts] ∧
    exec (.tsSplit ts) t = .next u ∧ u.results = t.results ++ [.split hi lo])

/-- 00_scope.md R13: `be32` and `u32be` by their formulas. -/
def Obligations.BigEndianHelpersFollowTheirRule : Prop :=
  (∀ (s : Bytes) (i : Nat) (b0 b1 b2 b3 : Byte), s[i]? = some b0 → s[i + 1]? = some b1 →
    s[i + 2]? = some b2 → s[i + 3]? = some b3 →
    ∃ v, be32 s i = some v ∧
      v.toNat = b0.toNat * 2 ^ 24 + b1.toNat * 2 ^ 16 + b2.toNat * 2 ^ 8 + b3.toNat) ∧
  (∀ v : U32, (u32be v).map BitVec.toNat =
    [v.toNat / 2 ^ 24, v.toNat / 2 ^ 16 % 2 ^ 8, v.toNat / 2 ^ 8 % 2 ^ 8, v.toNat % 2 ^ 8])

/-- 40_codec.md R104, and R105's law (which the spec marks derived): PackHeader is 13 bytes, and UnpackHeader and
PeekLength read its fields back, whatever follows the header. -/
def Obligations.UnpackOfPackIsTheHeader : Prop :=
  ∀ (t : Byte) (f h l : U32) (rest : Bytes),
    (packHeader t f h l).length = 13 ∧
      unpackHeader (packHeader t f h l ++ rest) = some ⟨t, f, h, l⟩ ∧
      peekLength (packHeader t f h l ++ rest) = some f

/-- 20_memory.md R46 (the spec marks it derived): the 8 bytes at frame offsets 5..12 as one big-endian value are the
timestamp. -/
def Obligations.TimestampIsEightBigEndianBytes : Prop :=
  ∀ (t l0 l1 l2 l3 b0 b1 b2 b3 b4 b5 b6 b7 : Byte) (rest : Bytes), ∃ h,
    unpackHeader (t :: l0 :: l1 :: l2 :: l3 ::
      b0 :: b1 :: b2 :: b3 :: b4 :: b5 :: b6 :: b7 :: rest) = some h ∧
    h.mtype = t ∧ h.fl.toNat =
      l0.toNat * 2 ^ 24 + l1.toNat * 2 ^ 16 + l2.toNat * 2 ^ 8 + l3.toNat ∧
    (tsJoin h.hi h.lo).toNat =
      b0.toNat * 2 ^ 56 + b1.toNat * 2 ^ 48 + b2.toNat * 2 ^ 40 + b3.toNat * 2 ^ 32 +
        b4.toNat * 2 ^ 24 + b5.toNat * 2 ^ 16 + b6.toNat * 2 ^ 8 + b7.toNat

/-! ### Stream decoder -/

/-- 41_decoder.md R121, ACCEPT_BYTE, as FEED of one byte: each way out of its pseudocode, with the whole next state.
`retained s ++ [b]` are the bytes of the buffer once `b` is stored. -/
def Obligations.FeedOfOneByteFollowsAcceptByte : Prop :=
  ∀ (s : State) (b : Byte), s.Inv →
    (s.derr ≠ .none →
      exec (.feed [b]) s = .next { s with results := s.results ++ [.feed [] true] }) ∧
    (s.derr = .none → s.level = s.cfg.bufCap →
      exec (.feed [b]) s =
        .next { s with derr := .bufferOverflow, results := s.results ++ [.feed [] true] }) ∧
    (s.derr = .none → s.level ≠ s.cfg.bufCap → s.level + 1 = 5 →
      ∀ hfl, be32 (retained s ++ [b]) 1 = some hfl →
      (hfl.toNat < 8 ∨ s.cfg.maxFrameLen < hfl.toNat) →
      exec (.feed [b]) s =
        .next { s with
          buf := Memory.write s.buf s.level b, level := s.level + 1, derr := .malformedHeader,
          results := s.results ++ [.feed [] true] }) ∧
    (s.derr = .none → s.level ≠ s.cfg.bufCap → 13 ≤ s.level + 1 →
      ∀ h, unpackHeader (retained s ++ [b]) = some h → s.level + 1 = 5 + h.fl.toNat →
      (2 ^ 21 ≤ h.hi.toNat →
        exec (.feed [b]) s =
          .next { s with
            buf := Memory.write s.buf s.level b, level := s.level + 1,
            derr := .timestampRangeError, results := s.results ++ [.feed [] true] }) ∧
      (h.hi.toNat < 2 ^ 21 →
        ∀ m : Message, m.messageType = h.mtype →
          m.timestamp.toNat = h.hi.toNat * 2 ^ 32 + h.lo.toNat →
          m.payload = (retained s ++ [b]).drop 13 →
          exec (.feed [b]) s =
            .next { s with
              buf := [], level := 0, msgLog := s.msgLog ++ [m],
              results := s.results ++ [.feed [m] false] })) ∧
    (s.derr = .none → s.level ≠ s.cfg.bufCap →
      (s.level + 1 = 5 → ∃ hfl, be32 (retained s ++ [b]) 1 = some hfl ∧
        8 ≤ hfl.toNat ∧ hfl.toNat ≤ s.cfg.maxFrameLen) →
      (13 ≤ s.level + 1 → ∃ hfl, be32 (retained s ++ [b]) 1 = some hfl ∧
        s.level + 1 ≠ 5 + hfl.toNat) →
      exec (.feed [b]) s =
        .next { s with
          buf := Memory.write s.buf s.level b, level := s.level + 1,
          results := s.results ++ [.feed [] false] })

/-- 41_decoder.md R122: FEED is the byte steps in chunk order.  FEED of `b :: bs` gives what FEED of `b` and then FEED of
`bs` give, with their Messages in one result, and its error bit is `derr != NONE` after the last byte. -/
def Obligations.FeedFoldsTheByteStep : Prop :=
  ∀ (s : State) (b : Byte) (bs : Bytes), s.Inv → ∃ u v m1 m2,
    exec (.feed [b]) s = .next u ∧
    u.results = s.results ++ [.feed m1 (decide (u.derr ≠ .none))] ∧
    exec (.feed bs) u = .next v ∧
    v.results = u.results ++ [.feed m2 (decide (v.derr ≠ .none))] ∧
    exec (.feed (b :: bs)) s =
      .next { v with results := s.results ++ [.feed (m1 ++ m2) (decide (v.derr ≠ .none))] }

/-- FEED answers for every chunk (41_decoder.md R132), returns the Messages it appends to `msg_log` and the bit
`derr != NONE`, and leaves everything outside the decoder, the logs and the results as it was. -/
def Obligations.FeedAnswersAndLeavesTheRest : Prop :=
  ∀ (s : State) (chunk : Bytes), s.Inv →
    (encode (.feed chunk)).op = 0x01#8 ∧
    ∃ t ms, exec (.feed chunk) s = .next t ∧
      t.results = s.results ++ [.feed ms (decide (t.derr ≠ .none))] ∧
      t.msgLog = s.msgLog ++ ms ∧
      t = { s with
        buf := t.buf, level := t.level, derr := t.derr, msgLog := t.msgLog, results := t.results }

/-- 41_decoder.md R128. -/
def Obligations.FeedOfAnEmptyChunkChangesNothing : Prop :=
  ∀ s : State, exec (.feed []) s =
    .next { s with results := s.results ++ [.feed [] (decide (s.derr ≠ .none))] }

/-- 41_decoder.md R129: FEED after a decoder error, and that no command but SOFT_RESET leaves the error state. -/
def Obligations.FeedAfterAnErrorDropsEveryByte : Prop :=
  (∀ (s : State) (chunk : Bytes), s.derr ≠ .none →
    exec (.feed chunk) s = .next { s with results := s.results ++ [.feed [] true] }) ∧
  (∀ (i : Instr) (s t : State), s.derr ≠ .none → i ≠ .softReset → exec i s = .next t →
    t.derr = s.derr ∧ t.buf = s.buf ∧ t.level = s.level) ∧
  (∀ (s t : State), exec .softReset s = .next t → t.derr = .none)

/-- 60_exceptions.md R207: no step but a reset changes `derr` once it is set; `buf` and LEVEL are frozen with it. -/
def Obligations.DecoderErrorsAreTerminal : Prop :=
  ∀ s t : State, s.derr ≠ .none → s.resetNext = false → step s = .next t →
    t.derr = s.derr ∧ t.level = s.level ∧ ∀ a, Memory.read t.buf a = Memory.read s.buf a

/-- 41_decoder.md R124: when no frame completes and no error is raised, FEED returns `([], 0)` and the buffer keeps every
byte.  Every address below the old level reads as before, and the chunk's bytes follow. -/
def Obligations.FeedWithoutACompleteFrameKeepsEveryByte : Prop :=
  ∀ (s t : State) (chunk : Bytes), s.Inv → exec (.feed chunk) s = .next t →
    t.msgLog = s.msgLog → t.derr = .none →
    t.results = s.results ++ [.feed [] false] ∧ t.level = s.level + chunk.length ∧
      ∀ a, Memory.read t.buf a =
        if a < s.level then Memory.read s.buf a else chunk[a - s.level]?

/-- 41_decoder.md R130 (the spec marks it derived): chunk-boundary independence.  From every state, FEED of `a ++ b` and
FEED of `a` then of `b` have equal effects and emit the same Messages; only the results' grouping differs. -/
def Obligations.ChunkBoundariesDoNotMatter : Prop :=
  ∀ (s : State) (a b : Bytes),
    (s.Inv → ∃ t, exec (.feed (a ++ b)) s = .next t) ∧
    ∀ t, exec (.feed (a ++ b)) s = .next t →
      ∃ u v ms ns e, exec (.feed a) s = .next u ∧ exec (.feed b) u = .next v ∧
        u.results = s.results ++ [.feed ms e] ∧
        v.results = u.results ++ [.feed ns (decide (t.derr ≠ .none))] ∧
        t = { v with results := s.results ++ [.feed (ms ++ ns) (decide (t.derr ≠ .none))] }

/-- 41_decoder.md R123 (the spec marks the agreement derived): where no byte step raises an error, FEED returns the
Messages of BMAN's chunk algorithm and retains its final `pending`. -/
def Obligations.FeedAgreesWithTheChunkAlgorithm : Prop :=
  ∀ (s t : State) (chunk : Bytes), s.Inv → s.derr = .none → exec (.feed chunk) s = .next t →
    t.derr = .none →
    t.results = s.results ++ [.feed (feedBman (retained s) chunk).1 false] ∧
      bufRead 0 t.level t = .ok (feedBman (retained s) chunk).2

/-- 41_decoder.md R131 and 20_memory.md R59 (the spec marks both derived): what is retained after a FEED. -/
def Obligations.RetainedBytesAreOneIncompleteFrame : Prop :=
  ∀ (s t : State) (chunk : Bytes), s.Inv → exec (.feed chunk) s = .next t →
    t.level ≤ t.cfg.bufCap ∧
      (t.derr = .none → t.level ≤ 4 ∨ ∃ fl, bufRead 1 4 t = .ok (u32be fl) ∧
        t.level < 5 + fl.toNat ∧ 5 + fl.toNat ≤ 5 + t.cfg.maxFrameLen)

/-- 10_state.md R33 (its bounds rest on 41_decoder.md R121): every Message a FEED emits has a timestamp below `2^53` and a
payload of at most `MAX_FRAME_LEN - 8` bytes. -/
def Obligations.EmittedMessagesAreInRange : Prop :=
  ∀ (s t : State) (chunk : Bytes) (ms : List Message), s.Inv → exec (.feed chunk) s = .next t →
    t.msgLog = s.msgLog ++ ms →
    ∀ m ∈ ms, m.timestamp.toNat < 2 ^ 53 ∧ m.payload.length + 8 ≤ s.cfg.maxFrameLen

/-- 60_exceptions.md R206, R210 (R210 is marked derived): an error is precise in stream order.  When byte `b` raises an
error, the bytes before it have their effect, and the bytes after it have none; the frame in which it arose emits no
Message. -/
def Obligations.DecoderErrorIsPreciseInStreamOrder : Prop :=
  ∀ (s u v : State) (a c : Bytes) (b : Byte), s.Inv →
    exec (.feed a) s = .next u → u.derr = .none → exec (.feed [b]) u = .next v →
    v.derr ≠ .none →
    ∃ w ms, exec (.feed (a ++ b :: c)) s = .next w ∧ w.msgLog = u.msgLog ∧
      u.msgLog = s.msgLog ++ ms ∧ w.derr = v.derr ∧ w.buf = v.buf ∧ w.level = v.level ∧
      w.results = s.results ++ [.feed ms true]

/-- 60_exceptions.md R202's last clauses (which the spec marks derived): with `MAX_FRAME_LEN <= BUF_CAP - 5`, the default
among them, no step raises BufferOverflow. -/
def Obligations.DefaultBuildNeverOverflows : Prop :=
  ∀ s t : State, s.Inv → s.cfg.maxFrameLen + 5 ≤ s.cfg.bufCap → s.derr ≠ .bufferOverflow →
    step s = .next t → t.derr ≠ .bufferOverflow

/-- 41_decoder.md R134: FEED depends on no encoder or front-end state, in any state, and writes none. -/
def Obligations.DecoderReadsNoEncoderState : Prop :=
  ∀ (s s' t : State) (chunk : Bytes), s.SameDecoder s' → exec (.feed chunk) s = .next t →
    ∃ t' r, exec (.feed chunk) s' = .next t' ∧ t.SameDecoder t' ∧
      t.results = s.results ++ [r] ∧ t'.results = s'.results ++ [r] ∧
      t'.encErr = s'.encErr ∧ t'.cmdErr = s'.cmdErr ∧ t'.txLog = s'.txLog

/-! ### Frame encoder -/

/-- 42_encoder.md R160: ENCODE's three ways out, the length check first.  The frame is said by its fields: messageType,
`8 + L`, the timestamp's halves and the payload.  The premise is that the build is legal (00_scope.md R7). -/
def Obligations.EncodeFollowsItsRule : Prop :=
  ∀ (m : Byte) (ts : U64) (p : Bytes) (s : State), s.cfg.wf = true →
    (encode (.encode m ts p)).op = 0x02#8 ∧
    (s.cfg.maxFrameLen < 8 + p.length →
      exec (.encode m ts p) s =
        .next { s with
          encErr := true, results := s.results ++ [.frame [] true (some .length)] }) ∧
    (8 + p.length ≤ s.cfg.maxFrameLen → 2 ^ 53 ≤ ts.toNat →
      exec (.encode m ts p) s =
        .next { s with
          encErr := true, results := s.results ++ [.frame [] true (some .timestamp)] }) ∧
    (8 + p.length ≤ s.cfg.maxFrameLen → ts.toNat < 2 ^ 53 →
      ∃ f fl hi lo,
        exec (.encode m ts p) s =
          .next { s with
            txLog := s.txLog ++ f, results := s.results ++ [.frame f false none] } ∧
        f.length = 13 + p.length ∧ f[0]? = some m ∧
        be32 f 1 = some fl ∧ fl.toNat = 8 + p.length ∧
        be32 f 5 = some hi ∧ hi.toNat = ts.toNat / 2 ^ 32 ∧
        be32 f 9 = some lo ∧ lo.toNat = ts.toNat % 2 ^ 32 ∧ f.drop 13 = p)

/-- 42_encoder.md R162: what ENCODE sends and returns depends on its operands and `MAX_FRAME_LEN` alone, in every state,
after a refusal too. -/
def Obligations.EncoderIsStateless : Prop :=
  ∀ (m : Byte) (ts : U64) (p : Bytes) (maxLen : Nat), ∃ f e reason,
    ∀ s : State, s.cfg.maxFrameLen = maxLen →
      exec (.encode m ts p) s =
        .next { s with
          txLog := s.txLog ++ f, encErr := s.encErr || e,
          results := s.results ++ [.frame f e reason] }

/-- 42_encoder.md R163, 30_encoding.md R69: ActionPayload's five bytes; bits 7:5 are 0, bits 4:0 are the keys
(30_encoding.md R70). -/
def Obligations.ActionPayloadFollowsItsRule : Prop :=
  ∀ (userId : U32) (keys : BitVec 5), ∃ b0 b1 b2 b3 bits : Byte,
    actionPayload userId keys = [b0, b1, b2, b3, bits] ∧
      userId.toNat =
        b0.toNat * 2 ^ 24 + b1.toNat * 2 ^ 16 + b2.toNat * 2 ^ 8 + b3.toNat ∧
      bits.toNat = keys.toNat ∧ bits.toNat < 2 ^ 5

/-- 42_encoder.md R164: SEND_ACTION is ENCODE of the action payload under `ACTION_MSG_TYPE` at the sampled `now_ms`, with
ENCODE's three ways out for `L = 5`. -/
def Obligations.SendActionFollowsItsRule : Prop :=
  ∀ (userId : U32) (keys : BitVec 5) (s : State), s.cfg.wf = true →
    (encode (.sendAction userId keys)).op = 0x03#8 ∧
    exec (.sendAction userId keys) s =
      exec (.encode s.cfg.actionMsgType s.nowMs (actionPayload userId keys)) s ∧
    (s.cfg.maxFrameLen < 13 →
      exec (.sendAction userId keys) s =
        .next { s with
          encErr := true, results := s.results ++ [.frame [] true (some .length)] }) ∧
    (13 ≤ s.cfg.maxFrameLen → 2 ^ 53 ≤ s.nowMs.toNat →
      exec (.sendAction userId keys) s =
        .next { s with
          encErr := true, results := s.results ++ [.frame [] true (some .timestamp)] }) ∧
    (13 ≤ s.cfg.maxFrameLen → s.nowMs.toNat < 2 ^ 53 →
      ∃ f fl hi lo,
        exec (.sendAction userId keys) s =
          .next { s with
            txLog := s.txLog ++ f, results := s.results ++ [.frame f false none] } ∧
        f.length = 18 ∧ f[0]? = some s.cfg.actionMsgType ∧
        be32 f 1 = some fl ∧ fl.toNat = 13 ∧
        be32 f 5 = some hi ∧ hi.toNat = s.nowMs.toNat / 2 ^ 32 ∧
        be32 f 9 = some lo ∧ lo.toNat = s.nowMs.toNat % 2 ^ 32 ∧
        f.drop 13 = actionPayload userId keys)

/-- 42_encoder.md R165 (the spec marks it derived): decode of encode.  Feed the frame an ENCODE returned, in any split, to a
running decoder with nothing retained: exactly the encoded Message is emitted and nothing is retained. -/
def Obligations.FeedOfAnEncodedFrameIsTheMessage : Prop :=
  ∀ (s u : State) (m : Byte) (ts : U64) (p f : Bytes) (chunks : List Bytes),
    s.Inv → s.derr = .none → s.level = 0 → 13 + p.length ≤ s.cfg.bufCap →
    exec (.encode m ts p) s = .next u → u.results = s.results ++ [.frame f false none] →
    chunks.flatten = f →
    ∃ t, execSeq (chunks.map Instr.feed) u = .next t ∧
      t.msgLog = s.msgLog ++ [⟨m, ts, p⟩] ∧ t.level = 0 ∧ t.derr = .none ∧
      t.txLog = s.txLog ++ f

/-- 20_memory.md R54 and 41_decoder.md R125, R126: the frames of any Messages, one after another and cut into chunks
anywhere, give exactly those Messages in that order (the spec marks the property it rests on, R130, derived). -/
def Obligations.MessagesLeaveInFrameOrder : Prop :=
  ∀ (s : State) (ms : List Message) (frames chunks : List Bytes),
    s.Inv → s.derr = .none → s.level = 0 →
    (∀ m ∈ ms, 13 + m.payload.length ≤ s.cfg.bufCap) →
    ms.map (fun m => encodeFrame s.cfg.maxFrameLen m.messageType m.timestamp m.payload) =
      frames.map Except.ok →
    chunks.flatten = frames.flatten →
    ∃ t, execSeq (chunks.map Instr.feed) s = .next t ∧
      t.msgLog = s.msgLog ++ ms ∧ t.level = 0 ∧ t.derr = .none

/-! ### Control, flags and status -/

/-- 43_control.md R190, 20_memory.md R51: READ_STATUS answers in every state with STATUS and LEVEL and writes nothing. -/
def Obligations.ReadStatusFollowsItsRule : Prop :=
  ∀ s : State, (encode .readStatus).op = 0x06#8 ∧ ∃ st lv : U32,
    exec .readStatus s = .next { s with results := s.results ++ [.status st lv] } ∧
    st.getLsbD 0 = decide (s.derr ≠ .none) ∧
    st.toNat / 2 % 4 =
      (match s.derr with
        | .none => 0
        | .malformedHeader => 1
        | .bufferOverflow => 2
        | .timestampRangeError => 3) ∧
    st.getLsbD 3 = s.encErr ∧ st.getLsbD 4 = s.cmdErr ∧ st.toNat < 2 ^ 5 ∧
    lv.toNat = s.level % 2 ^ 32

/-- 60_exceptions.md R208: `dec_error` is 0 from reset and 1 from the error entry until the next reset, and FEED's error
bit carries the same. -/
def Obligations.DecErrorSurfacesTheDecoderError : Prop :=
  decError State.reset = false ∧
    (∀ s : State, decError s = (statusReg s).getLsbD 0 ∧ decError s = decide (s.derr ≠ .none)) ∧
    (∀ (s t : State) (chunk : Bytes), exec (.feed chunk) s = .next t →
      ∃ ms, t.results = s.results ++ [.feed ms (decError t)]) ∧
    (∀ s t : State, decError s = true → s.resetNext = false → step s = .next t →
      decError t = true)

/-- 43_control.md R192, 60_exceptions.md R205: each of the six reserved forms answers in every state, sets `cmd_err`,
returns the empty result and changes nothing else. -/
def Obligations.ReservedFormsSetCmdErrOnly : Prop :=
  ∀ i : Instr, i.isReserved = true →
    ((encode i).op = 0x00#8 ∨ 8 ≤ (encode i).op.toNat) ∧
    ∀ s : State, exec i s = .next { s with cmdErr := true, results := s.results ++ [.none] }

/-- 30_encoding.md R73: a command with opcode 0x00 or 0x08..0xFF, whatever stands on the operand ports, raises
IllegalCommand and changes nothing else; that the input and its clock value are taken is the model's interface (log
entries 3, 4). -/
def Obligations.ReservedOpcodesAreIllegal : Prop :=
  ∀ (s : State) (c : Command) (now : U64) (rest : List Input),
    (c.op = 0x00#8 ∨ 8 ≤ c.op.toNat) → s.inputs = .command c now :: rest →
    step s = .next { s with
      inputs := rest, nowMs := now, cmdErr := true, results := s.results ++ [.none] }

/-- 10_state.md R25: `enc_err` is 1 after a refused ENCODE or SEND_ACTION, only a reset clears it, and it does not stop
the encoder. -/
def Obligations.EncErrIsStickyAndStopsNothing : Prop :=
  (∀ (i : Instr) (s t : State) (f : Bytes) (reason : Option EncodeReason),
    exec i s = .next t → t.results = s.results ++ [.frame f true reason] → t.encErr = true) ∧
  (∀ s t : State, s.encErr = true → s.resetNext = false → step s = .next t →
    t.encErr = true) ∧
  (∀ (i : Instr) (s t : State) (e : Bool),
    ((∃ m ts p, i = .encode m ts p) ∨ ∃ u k, i = .sendAction u k) → exec i s = .next t →
    ∃ t', exec i { s with encErr := e } = .next t' ∧ t'.results = t.results ∧
      t'.txLog = t.txLog)

/-- 10_state.md R26: `cmd_err` is 1 after a command with a reserved opcode, and only a reset clears it. -/
def Obligations.CmdErrIsSticky : Prop :=
  (∀ (i : Instr) (s t : State), i.isReserved = true → exec i s = .next t → t.cmdErr = true) ∧
  (∀ s t : State, s.cmdErr = true → s.resetNext = false → step s = .next t → t.cmdErr = true)

/-- 10_state.md R28, 60_exceptions.md R211: each error indication is changed only by the commands of its own unit and by
SOFT_RESET. -/
def Obligations.ErrorIndicationsAreIndependent : Prop :=
  ∀ (i : Instr) (s t : State), i ≠ .softReset → exec i s = .next t →
    (t.derr ≠ s.derr → ∃ chunk, i = .feed chunk) ∧
    (t.encErr ≠ s.encErr → (∃ m ts p, i = .encode m ts p) ∨ ∃ u k, i = .sendAction u k) ∧
    (t.cmdErr ≠ s.cmdErr → i.isReserved = true)

/-! ### The whole machine -/

/-- The invariant holds at reset, of every legal build, and the logs agree there (10_state.md R34). -/
def Obligations.InvariantHoldsAtReset : Prop :=
  State.reset.Inv ∧ State.reset.LogsAgree ∧
    ∀ c : Config, c.wf = true → (State.fresh c).Inv ∧ (State.fresh c).LogsAgree

/-- Every step keeps the invariant: exactly `buf[0 .. level)` holds values, `level <= BUF_CAP`, and the retained bytes are
one incomplete head frame, or what an error froze (10_state.md R21, R22; 20_memory.md R59; 60_exceptions.md R201-R203,
R206). -/
def Obligations.StepKeepsTheInvariant : Prop :=
  ∀ s t : State, s.Inv → step s = .next t → t.Inv

/-- 20_memory.md R41, "no run reaches one" (marked derived): from a state that meets the invariant no step faults. -/
def Obligations.StepNeverFaults : Prop :=
  ∀ (s : State) (f : Fault), s.Inv → step s ≠ .fault f

/-- A step keeps the pending buffer's canonical form, from any state; the list form of `buf` is the model's choice (log
entry 7). -/
def Obligations.StepKeepsTheBufferCanonical : Prop :=
  ∀ s t : State, Memory.wf s.buf = true → step s = .next t → Memory.wf t.buf = true

/-- 10_state.md R31: no step changes the parameters.  That they stand in State is the model's choice (log entry 1). -/
def Obligations.StepKeepsTheBuild : Prop :=
  ∀ s t : State, step s = .next t → t.cfg = s.cfg

/-- 10_state.md R32: the logs only grow, and a reset starts a new segment with the grown old one kept (log entry 9). -/
def Obligations.LogsOnlyGrow : Prop :=
  ∀ s t : State, step s = .next t → ∃ ms bs rs,
    (s.resetNext = false → t.msgLog = s.msgLog ++ ms ∧ t.txLog = s.txLog ++ bs ∧
      t.results = s.results ++ rs ∧ t.ended = s.ended) ∧
    (s.resetNext = true → t.msgLog = [] ∧ t.txLog = [] ∧ t.results = [] ∧
      t.ended = s.ended ++ [⟨s.msgLog ++ ms, s.txLog ++ bs, s.results ++ rs⟩])

/-- 20_memory.md R54, R55: `msg_log` is the Messages the FEEDs returned and `tx_log` the frames the encoder returned, in
command order, never interleaved; every step keeps that. -/
def Obligations.StepKeepsTheLogsInCommandOrder : Prop :=
  ∀ s t : State, s.LogsAgree → step s = .next t → t.LogsAgree

/-- 42_encoder.md R161: the tx port sends each frame's header segment and then its payload segment, and its bytes are
`tx_log`. -/
def Obligations.TxPortSendsHeaderThenPayload : Prop :=
  (∀ frame : Bytes, ∃ h p, txBeats frame = h ++ p ∧ h.map TxBeat.txData = frame.take 13 ∧
    p.map TxBeat.txData = frame.drop 13 ∧ (∀ b ∈ h, b.txSeg = false) ∧ ∀ b ∈ p, b.txSeg = true) ∧
  (∀ s : State, s.LogsAgree → (txPort s).map TxBeat.txData = s.txLog)

/-- 43_control.md R194: every command terminates.  From a state that meets the invariant, a queue of inputs that decode is
worked off in as many steps as it has inputs, and the invariant holds at the end (the queue is the model's, log entry
4). -/
def Obligations.EveryInputIsWorkedOff : Prop :=
  ∀ s : State, s.Inv →
    (∀ x ∈ s.inputs, match x with
      | .command c _ => ∃ i, decode c = .ok i
      | .rst => True
      | .commandCutByRst c _ _ => ∃ i, decode c = .ok i) →
    ∃ t, Host.Core.run Sys2Proof.core s.inputs.length s = .next t ∧ State.inputs t = [] ∧
      State.Inv t
end

