-- ==== Sys2Proof/Laws/Decode.lean ====
section
/-! SUPPORT. What the decoder reads from a command, once (30_encoding.md R72, R73). -/

namespace Sys2Proof

/-- Every opcode is one of the thirteen rows. -/
theorem opcode_cases (op : Byte) :
    op = 0x01#8 ∨ op = 0x02#8 ∨ op = 0x03#8 ∨ op = 0x04#8 ∨ op = 0x05#8 ∨ op = 0x06#8 ∨
      op = 0x07#8 ∨ op = 0x00#8 ∨ op &&& 0xF8#8 = 0x08#8 ∨ op &&& 0xF0#8 = 0x10#8 ∨
      op &&& 0xE0#8 = 0x20#8 ∨ op &&& 0xC0#8 = 0x40#8 ∨ op &&& 0x80#8 = 0x80#8 := by
  have h : ∀ op : Byte,
      (op == 0x01#8 || op == 0x02#8 || op == 0x03#8 || op == 0x04#8 || op == 0x05#8 ||
        op == 0x06#8 || op == 0x07#8 || op == 0x00#8 || op &&& 0xF8#8 == 0x08#8 ||
        op &&& 0xF0#8 == 0x10#8 || op &&& 0xE0#8 == 0x20#8 || op &&& 0xC0#8 == 0x40#8 ||
        op &&& 0x80#8 == 0x80#8) = true := by decide
  have hop := h op
  simp only [Bool.or_eq_true, beq_iff_eq] at hop
  rcases hop with (((((((((((h | h) | h) | h) | h) | h) | h) | h) | h) | h) | h) | h) | h <;>
    simp only [h, true_or, or_true]

/-- The opcode of a decoded command says which command it is, and its ports say its operands. -/
theorem decode_cases (c : Command) (i : Instr) (h : decode c = .ok i) :
    (c.op = 0x01#8 ∧ c.data.length = c.len.toNat ∧ i = .feed c.data) ∨
    (c.op = 0x02#8 ∧ c.data.length = c.len.toNat ∧ i = .encode c.mtype c.ts c.data) ∨
    (c.op = 0x03#8 ∧ i = .sendAction c.user c.keys) ∨
    (c.op = 0x04#8 ∧ i = .tsSplit c.ts) ∨
    (c.op = 0x05#8 ∧ i = .tsJoin c.hi c.lo) ∨
    (c.op = 0x06#8 ∧ i = .readStatus) ∨
    (c.op = 0x07#8 ∧ i = .softReset) ∨
    (c.op = 0x00#8 ∧ i = .reserved00) ∨
    (c.op &&& 0xF8#8 = 0x08#8 ∧ i = .reserved08 (c.op.extractLsb' 0 3)) ∨
    (c.op &&& 0xF0#8 = 0x10#8 ∧ i = .reserved10 (c.op.extractLsb' 0 4)) ∨
    (c.op &&& 0xE0#8 = 0x20#8 ∧ i = .reserved20 (c.op.extractLsb' 0 5)) ∨
    (c.op &&& 0xC0#8 = 0x40#8 ∧ i = .reserved40 (c.op.extractLsb' 0 6)) ∨
    (c.op &&& 0x80#8 = 0x80#8 ∧ i = .reserved80 (c.op.extractLsb' 0 7)) := by
  have hb : ∀ d, byteOperand c = .ok d → c.data.length = c.len.toNat ∧ d = c.data := by
    intro d hd
    unfold byteOperand at hd
    split at hd
    · cases hd
      exact ⟨‹_›, rfl⟩
    · cases hd
  rw [decode] at h
  by_cases h1 : c.op = 0x01#8
  · rw [if_pos h1] at h
    split at h
    · rename_i d hd
      cases h
      obtain ⟨hl, rfl⟩ := hb d hd
      exact .inl ⟨h1, hl, rfl⟩
    · cases h
  rw [if_neg h1] at h
  by_cases h2 : c.op = 0x02#8
  · rw [if_pos h2] at h
    split at h
    · rename_i d hd
      cases h
      obtain ⟨hl, rfl⟩ := hb d hd
      exact .inr (.inl ⟨h2, hl, rfl⟩)
    · cases h
  rw [if_neg h2] at h
  by_cases h3 : c.op = 0x03#8
  · rw [if_pos h3] at h
    cases h
    exact .inr (.inr (.inl ⟨h3, rfl⟩))
  rw [if_neg h3] at h
  by_cases h4 : c.op = 0x04#8
  · rw [if_pos h4] at h
    cases h
    exact .inr (.inr (.inr (.inl ⟨h4, rfl⟩)))
  rw [if_neg h4] at h
  by_cases h5 : c.op = 0x05#8
  · rw [if_pos h5] at h
    cases h
    exact .inr (.inr (.inr (.inr (.inl ⟨h5, rfl⟩))))
  rw [if_neg h5] at h
  by_cases h6 : c.op = 0x06#8
  · rw [if_pos h6] at h
    cases h
    exact .inr (.inr (.inr (.inr (.inr (.inl ⟨h6, rfl⟩)))))
  rw [if_neg h6] at h
  by_cases h7 : c.op = 0x07#8
  · rw [if_pos h7] at h
    cases h
    exact .inr (.inr (.inr (.inr (.inr (.inr (.inl ⟨h7, rfl⟩))))))
  rw [if_neg h7] at h
  by_cases h8 : c.op = 0x00#8
  · rw [if_pos h8] at h
    cases h
    exact .inr (.inr (.inr (.inr (.inr (.inr (.inr (.inl ⟨h8, rfl⟩)))))))
  rw [if_neg h8] at h
  by_cases h9 : c.op &&& 0xF8#8 = 0x08#8
  · rw [if_pos h9] at h
    cases h
    exact .inr (.inr (.inr (.inr (.inr (.inr (.inr (.inr (.inl ⟨h9, rfl⟩))))))))
  rw [if_neg h9] at h
  by_cases h10 : c.op &&& 0xF0#8 = 0x10#8
  · rw [if_pos h10] at h
    cases h
    exact .inr (.inr (.inr (.inr (.inr (.inr (.inr (.inr (.inr (.inl ⟨h10, rfl⟩)))))))))
  rw [if_neg h10] at h
  by_cases h11 : c.op &&& 0xE0#8 = 0x20#8
  · rw [if_pos h11] at h
    cases h
    exact .inr (.inr (.inr (.inr (.inr (.inr (.inr (.inr (.inr (.inr (.inl ⟨h11, rfl⟩))))))))))
  rw [if_neg h11] at h
  by_cases h12 : c.op &&& 0xC0#8 = 0x40#8
  · rw [if_pos h12] at h
    cases h
    exact .inr (.inr (.inr (.inr (.inr (.inr (.inr (.inr (.inr (.inr (.inr (.inl ⟨h12, rfl⟩)))))))))))
  rw [if_neg h12] at h
  cases h
  rcases opcode_cases c.op with h | h | h | h | h | h | h | h | h | h | h | h | h
  · exact absurd h h1
  · exact absurd h h2
  · exact absurd h h3
  · exact absurd h h4
  · exact absurd h h5
  · exact absurd h h6
  · exact absurd h h7
  · exact absurd h h8
  · exact absurd h h9
  · exact absurd h h10
  · exact absurd h h11
  · exact absurd h h12
  · exact .inr (.inr (.inr (.inr (.inr (.inr (.inr (.inr (.inr (.inr (.inr (.inr (⟨h, rfl⟩))))))))))))

/-- What both branches of a decoding test answer, the test answers. -/
theorem of_both_branches (P : Except DecodeError Instr → Prop) {p : Prop} [Decidable p]
    {x y : Except DecodeError Instr} (hx : P x) (hy : P y) : P (if p then x else y) := by
  by_cases h : p
  · rwa [if_pos h]
  · rwa [if_neg h]

/-- A byte operand that is read has a length below `2^32`: `cmd_len` is a `u32`. -/
theorem byteOperand_length (c : Command) (bs : Bytes) (h : byteOperand c = .ok bs) :
    bs.length < 2 ^ 32 := by
  unfold byteOperand at h
  split at h
  · next hl => cases h; rw [hl]; exact c.len.isLt
  · cases h

/-- A command is refused exactly when a byte operand has not its stated length. -/
theorem decode_total (c : Command)
    (h : c.op ≠ 0x01#8 ∧ c.op ≠ 0x02#8 ∨ c.data.length = c.len.toNat) :
    ∃ i, decode c = .ok i := by
  unfold decode byteOperand
  by_cases h1 : c.op = 0x01#8
  · rcases h with h | h
    · exact absurd h1 h.1
    · simp [h1, h]
  · by_cases h2 : c.op = 0x02#8
    · rcases h with h | h
      · exact absurd h2 h.2
      · simp [h2, h]
    · simp only [h1, h2, if_false]
      repeat' apply of_both_branches (fun x => ∃ i, x = .ok i)
      all_goals exact ⟨_, rfl⟩

/-- A decoded command is well formed: its byte operand has the length a `u32` states. -/
theorem decode_wf (c : Command) (i : Instr) (h : decode c = .ok i) : i.wf = true := by
  revert i
  unfold decode
  repeat' apply of_both_branches (fun x => ∀ i, x = .ok i → i.wf = true)
  case hx | hy.hx =>
    cases hb : byteOperand c with
    | error e => intro i h; cases h
    | ok bs => intro i h; cases h; exact decide_eq_true (byteOperand_length c bs hb)
  all_goals intro i h; cases h; rfl

end Sys2Proof
end

