-- ==== Sys2Proof/Laws/State.lean ====
section
/-! SUPPORT. One lemma per field of State per shared operation, so that no later proof unfolds a record update. -/

namespace Sys2Proof.Machine

@[simp] theorem bufDrop_cfg (s : State) : (bufDrop s).cfg = s.cfg := rfl

@[simp] theorem bufDrop_buf (s : State) : (bufDrop s).buf = [] := rfl

@[simp] theorem bufDrop_level (s : State) : (bufDrop s).level = 0 := rfl

@[simp] theorem bufDrop_derr (s : State) : (bufDrop s).derr = s.derr := rfl

@[simp] theorem bufDrop_encErr (s : State) : (bufDrop s).encErr = s.encErr := rfl

@[simp] theorem bufDrop_cmdErr (s : State) : (bufDrop s).cmdErr = s.cmdErr := rfl

@[simp] theorem bufDrop_msgLog (s : State) : (bufDrop s).msgLog = s.msgLog := rfl

@[simp] theorem bufDrop_txLog (s : State) : (bufDrop s).txLog = s.txLog := rfl

@[simp] theorem bufDrop_results (s : State) : (bufDrop s).results = s.results := rfl

@[simp] theorem bufDrop_ended (s : State) : (bufDrop s).ended = s.ended := rfl

@[simp] theorem bufDrop_nowMs (s : State) : (bufDrop s).nowMs = s.nowMs := rfl

@[simp] theorem bufDrop_inputs (s : State) : (bufDrop s).inputs = s.inputs := rfl

@[simp] theorem emit_cfg (m : Message) (s : State) : (emit m s).cfg = s.cfg := rfl

@[simp] theorem emit_buf (m : Message) (s : State) : (emit m s).buf = s.buf := rfl

@[simp] theorem emit_level (m : Message) (s : State) : (emit m s).level = s.level := rfl

@[simp] theorem emit_derr (m : Message) (s : State) : (emit m s).derr = s.derr := rfl

@[simp] theorem emit_encErr (m : Message) (s : State) : (emit m s).encErr = s.encErr := rfl

@[simp] theorem emit_cmdErr (m : Message) (s : State) : (emit m s).cmdErr = s.cmdErr := rfl

@[simp] theorem emit_msgLog (m : Message) (s : State) : (emit m s).msgLog = s.msgLog ++ [m] := rfl

@[simp] theorem emit_txLog (m : Message) (s : State) : (emit m s).txLog = s.txLog := rfl

@[simp] theorem emit_results (m : Message) (s : State) : (emit m s).results = s.results := rfl

@[simp] theorem emit_ended (m : Message) (s : State) : (emit m s).ended = s.ended := rfl

@[simp] theorem emit_nowMs (m : Message) (s : State) : (emit m s).nowMs = s.nowMs := rfl

@[simp] theorem emit_inputs (m : Message) (s : State) : (emit m s).inputs = s.inputs := rfl

@[simp] theorem send_cfg (bs : Bytes) (s : State) : (send bs s).cfg = s.cfg := rfl

@[simp] theorem send_buf (bs : Bytes) (s : State) : (send bs s).buf = s.buf := rfl

@[simp] theorem send_level (bs : Bytes) (s : State) : (send bs s).level = s.level := rfl

@[simp] theorem send_derr (bs : Bytes) (s : State) : (send bs s).derr = s.derr := rfl

@[simp] theorem send_encErr (bs : Bytes) (s : State) : (send bs s).encErr = s.encErr := rfl

@[simp] theorem send_cmdErr (bs : Bytes) (s : State) : (send bs s).cmdErr = s.cmdErr := rfl

@[simp] theorem send_msgLog (bs : Bytes) (s : State) : (send bs s).msgLog = s.msgLog := rfl

@[simp] theorem send_txLog (bs : Bytes) (s : State) : (send bs s).txLog = s.txLog ++ bs := rfl

@[simp] theorem send_results (bs : Bytes) (s : State) : (send bs s).results = s.results := rfl

@[simp] theorem send_ended (bs : Bytes) (s : State) : (send bs s).ended = s.ended := rfl

@[simp] theorem send_nowMs (bs : Bytes) (s : State) : (send bs s).nowMs = s.nowMs := rfl

@[simp] theorem send_inputs (bs : Bytes) (s : State) : (send bs s).inputs = s.inputs := rfl

@[simp] theorem pushResult_cfg (r : Result) (s : State) : (pushResult r s).cfg = s.cfg := rfl

@[simp] theorem pushResult_buf (r : Result) (s : State) : (pushResult r s).buf = s.buf := rfl

@[simp] theorem pushResult_level (r : Result) (s : State) : (pushResult r s).level = s.level := rfl

@[simp] theorem pushResult_derr (r : Result) (s : State) : (pushResult r s).derr = s.derr := rfl

@[simp] theorem pushResult_encErr (r : Result) (s : State) : (pushResult r s).encErr = s.encErr := rfl

@[simp] theorem pushResult_cmdErr (r : Result) (s : State) : (pushResult r s).cmdErr = s.cmdErr := rfl

@[simp] theorem pushResult_msgLog (r : Result) (s : State) : (pushResult r s).msgLog = s.msgLog := rfl

@[simp] theorem pushResult_txLog (r : Result) (s : State) : (pushResult r s).txLog = s.txLog := rfl

@[simp] theorem pushResult_results (r : Result) (s : State) : (pushResult r s).results = s.results ++ [r] := rfl

@[simp] theorem pushResult_ended (r : Result) (s : State) : (pushResult r s).ended = s.ended := rfl

@[simp] theorem pushResult_nowMs (r : Result) (s : State) : (pushResult r s).nowMs = s.nowMs := rfl

@[simp] theorem pushResult_inputs (r : Result) (s : State) : (pushResult r s).inputs = s.inputs := rfl

@[simp] theorem resetBlock_cfg (s : State) : (resetBlock s).cfg = s.cfg := rfl

@[simp] theorem resetBlock_buf (s : State) : (resetBlock s).buf = [] := rfl

@[simp] theorem resetBlock_level (s : State) : (resetBlock s).level = 0 := rfl

@[simp] theorem resetBlock_derr (s : State) : (resetBlock s).derr = .none := rfl

@[simp] theorem resetBlock_encErr (s : State) : (resetBlock s).encErr = false := rfl

@[simp] theorem resetBlock_cmdErr (s : State) : (resetBlock s).cmdErr = false := rfl

@[simp] theorem resetBlock_msgLog (s : State) : (resetBlock s).msgLog = [] := rfl

@[simp] theorem resetBlock_txLog (s : State) : (resetBlock s).txLog = [] := rfl

@[simp] theorem resetBlock_results (s : State) : (resetBlock s).results = [] := rfl

@[simp] theorem resetBlock_ended (s : State) : (resetBlock s).ended = s.ended ++ [s.observation] := rfl

@[simp] theorem resetBlock_nowMs (s : State) : (resetBlock s).nowMs = s.nowMs := rfl

@[simp] theorem resetBlock_inputs (s : State) : (resetBlock s).inputs = s.inputs := rfl

@[simp] theorem raiseDecoder_cfg (e : Derr) (s : State) : (raiseDecoder e s).cfg = s.cfg := by
  unfold raiseDecoder; split <;> rfl

@[simp] theorem raiseDecoder_buf (e : Derr) (s : State) : (raiseDecoder e s).buf = s.buf := by
  unfold raiseDecoder; split <;> rfl

@[simp] theorem raiseDecoder_level (e : Derr) (s : State) : (raiseDecoder e s).level = s.level := by
  unfold raiseDecoder; split <;> rfl

@[simp] theorem raiseDecoder_encErr (e : Derr) (s : State) : (raiseDecoder e s).encErr = s.encErr := by
  unfold raiseDecoder; split <;> rfl

@[simp] theorem raiseDecoder_cmdErr (e : Derr) (s : State) : (raiseDecoder e s).cmdErr = s.cmdErr := by
  unfold raiseDecoder; split <;> rfl

@[simp] theorem raiseDecoder_msgLog (e : Derr) (s : State) : (raiseDecoder e s).msgLog = s.msgLog := by
  unfold raiseDecoder; split <;> rfl

@[simp] theorem raiseDecoder_txLog (e : Derr) (s : State) : (raiseDecoder e s).txLog = s.txLog := by
  unfold raiseDecoder; split <;> rfl

@[simp] theorem raiseDecoder_results (e : Derr) (s : State) : (raiseDecoder e s).results = s.results := by
  unfold raiseDecoder; split <;> rfl

@[simp] theorem raiseDecoder_ended (e : Derr) (s : State) : (raiseDecoder e s).ended = s.ended := by
  unfold raiseDecoder; split <;> rfl

@[simp] theorem raiseDecoder_nowMs (e : Derr) (s : State) : (raiseDecoder e s).nowMs = s.nowMs := by
  unfold raiseDecoder; split <;> rfl

@[simp] theorem raiseDecoder_inputs (e : Derr) (s : State) : (raiseDecoder e s).inputs = s.inputs := by
  unfold raiseDecoder; split <;> rfl

@[simp] theorem raise_cfg (e : Error) (s : State) : (raise e s).cfg = s.cfg := by
  cases e <;> simp [raise]

@[simp] theorem raise_buf (e : Error) (s : State) : (raise e s).buf = s.buf := by
  cases e <;> simp [raise]

@[simp] theorem raise_level (e : Error) (s : State) : (raise e s).level = s.level := by
  cases e <;> simp [raise]

@[simp] theorem raise_msgLog (e : Error) (s : State) : (raise e s).msgLog = s.msgLog := by
  cases e <;> simp [raise]

@[simp] theorem raise_txLog (e : Error) (s : State) : (raise e s).txLog = s.txLog := by
  cases e <;> simp [raise]

@[simp] theorem raise_results (e : Error) (s : State) : (raise e s).results = s.results := by
  cases e <;> simp [raise]

@[simp] theorem raise_ended (e : Error) (s : State) : (raise e s).ended = s.ended := by
  cases e <;> simp [raise]

@[simp] theorem raise_nowMs (e : Error) (s : State) : (raise e s).nowMs = s.nowMs := by
  cases e <;> simp [raise]

@[simp] theorem raise_inputs (e : Error) (s : State) : (raise e s).inputs = s.inputs := by
  cases e <;> simp [raise]

theorem raiseDecoder_derr_of_none (e : Derr) (s : State) (h : s.derr = .none) :
    (raiseDecoder e s).derr = e := by
  simp [raiseDecoder, h]

theorem raiseDecoder_eq_of_error (e : Derr) (s : State) (h : s.derr ≠ .none) :
    raiseDecoder e s = s := by
  simp [raiseDecoder, h]

@[simp] theorem raise_encodeInvalidInput_derr (r : EncodeReason) (s : State) :
    (raise (.encodeInvalidInput r) s).derr = s.derr := rfl

@[simp] theorem raise_encodeInvalidInput_encErr (r : EncodeReason) (s : State) :
    (raise (.encodeInvalidInput r) s).encErr = true := rfl

@[simp] theorem raise_encodeInvalidInput_cmdErr (r : EncodeReason) (s : State) :
    (raise (.encodeInvalidInput r) s).cmdErr = s.cmdErr := rfl

@[simp] theorem raise_illegalCommand_derr (s : State) :
    (raise .illegalCommand s).derr = s.derr := rfl

@[simp] theorem raise_illegalCommand_encErr (s : State) :
    (raise .illegalCommand s).encErr = s.encErr := rfl

@[simp] theorem raise_illegalCommand_cmdErr (s : State) :
    (raise .illegalCommand s).cmdErr = true := rfl

/-- A decoder error leaves the other two indications alone (60_exceptions.md R211). -/
theorem raise_decoder_flags (e : Error)
    (he : e = .malformedHeader ∨ e = .bufferOverflow ∨ e = .timestampRangeError) (s : State) :
    (raise e s).encErr = s.encErr ∧ (raise e s).cmdErr = s.cmdErr := by
  rcases he with rfl | rfl | rfl <;> simp [raise]

/-- A reset gives the fresh state of the same build, but for the ended segments and the inputs. -/
theorem resetBlock_eq (s : State) :
    resetBlock s =
      { State.fresh s.cfg with
        ended := s.ended ++ [s.observation], nowMs := s.nowMs, inputs := s.inputs } := rfl

@[simp] theorem retained_pushResult (r : Result) (s : State) :
    retained (pushResult r s) = retained s := rfl

@[simp] theorem retained_raise (e : Error) (s : State) : retained (raise e s) = retained s := by
  simp [retained]

@[simp] theorem retained_bufDrop (s : State) : retained (bufDrop s) = [] := rfl

end Sys2Proof.Machine
end

