-- ==== Sys2Proof/Laws/Memory.lean ====
section
/-! SUPPORT. The pending buffer: read after write, the canonical form, and what BufRead and BufAppend give where exactly
the addresses `0 .. level-1` hold a value. -/

namespace Sys2Proof.Machine

@[simp] theorem read_write_same (m : Memory) (a : Nat) (b : Byte) :
    Memory.read (Memory.write m a b) a = some b := by
  induction m with
  | nil => simp [Memory.write, Memory.read]
  | cons c m ih =>
    obtain ⟨k, v⟩ := c
    simp only [Memory.write]
    split
    · simp [Memory.read]
    · split
      · simp [Memory.read]
      · rename_i h1 h2
        simp [Memory.read, Ne.symm h2, ih]

theorem read_write_other (m : Memory) (a c : Nat) (b : Byte) (h : c ≠ a) :
    Memory.read (Memory.write m a b) c = Memory.read m c := by
  induction m with
  | nil => simp [Memory.write, Memory.read, Ne.symm h]
  | cons d m ih =>
    obtain ⟨k, v⟩ := d
    simp only [Memory.write]
    split
    · simp [Memory.read, Ne.symm h]
    · split
      · rename_i _ h2
        subst h2
        simp [Memory.read, Ne.symm h]
      · simp [Memory.read, ih]

theorem above_iff (k : Nat) (m : Memory) :
    Memory.above k m = true ↔ ∀ a ∈ m.map Prod.fst, k < a := by
  induction m with
  | nil => simp [Memory.above]
  | cons c m ih => simp [Memory.above, ih]

/-- The canonical form is that the addresses rise strictly. -/
theorem wf_iff (m : Memory) : Memory.wf m = true ↔ (m.map Prod.fst).Pairwise (· < ·) := by
  induction m with
  | nil => simp [Memory.wf]
  | cons c m ih => simp [Memory.wf, ih, above_iff, unlistedByte]

theorem above_write (k a : Nat) (b : Byte) (m : Memory) (hk : k < a)
    (hm : Memory.above k m = true) : Memory.above k (Memory.write m a b) = true := by
  induction m with
  | nil => simp [Memory.write, Memory.above, hk]
  | cons c m ih =>
    obtain ⟨j, v⟩ := c
    simp only [Memory.above, Bool.and_eq_true, decide_eq_true_eq] at hm
    simp only [Memory.write]
    split
    · simp [Memory.above, hk, hm]
    · split
      · simp [Memory.above, hk, hm]
      · simp [Memory.above, hm.1, ih hm.2]

/-- A write keeps the canonical form. -/
theorem wf_write (m : Memory) (a : Nat) (b : Byte) (h : Memory.wf m = true) :
    Memory.wf (Memory.write m a b) = true := by
  induction m with
  | nil => simp [Memory.write, Memory.wf, Memory.above, unlistedByte]
  | cons c m ih =>
    obtain ⟨k, v⟩ := c
    simp only [Memory.wf, Bool.and_eq_true, decide_eq_true_eq] at h
    simp only [Memory.write]
    split
    · rename_i hlt
      have hall := (above_iff k m).mp h.1.1
      have : Memory.above a m = true :=
        (above_iff a m).mpr (fun x hx => Nat.lt_trans hlt (hall x hx))
      simp [Memory.wf, Memory.above, hlt, this, h, unlistedByte]
    · split
      · rename_i _ heq
        subst heq
        simp [Memory.wf, h, unlistedByte]
      · rename_i h1 h2
        have hka : k < a := by omega
        simp [Memory.wf, above_write k a b m hka h.1.1, ih h.2, unlistedByte]

/-- The empty buffer is in canonical form. -/
theorem wf_nil : Memory.wf [] = true := rfl

/-- `BufAppend` keeps the canonical form. -/
theorem bufAppend_wf (b : Byte) (s t : State) (h : bufAppend b s = .ok t)
    (hw : Memory.wf s.buf = true) : Memory.wf t.buf = true := by
  unfold bufAppend at h
  split at h
  · cases h
    exact wf_write _ _ _ hw
  · cases h

/-- A buffer whose addresses are exactly `0 .. n-1` is in canonical form. -/
theorem wf_of_keys (m : Memory) (n : Nat) (h : m.map Prod.fst = List.range n) :
    Memory.wf m = true := by
  rw [wf_iff, h]
  exact List.pairwise_lt_range

/-- A write above every address that holds a value goes to the end. -/
theorem write_at_end (m : Memory) (a : Nat) (b : Byte) (h : ∀ k ∈ m.map Prod.fst, k < a) :
    Memory.write m a b = m ++ [(a, b)] := by
  induction m with
  | nil => rfl
  | cons c m ih =>
    obtain ⟨k, v⟩ := c
    have hk : k < a := h k (by simp)
    have ht := ih (fun x hx => h x (by simp at hx ⊢; right; exact hx))
    simp [Memory.write, Nat.not_lt.mpr (Nat.le_of_lt hk), Nat.ne_of_gt hk, ht]

theorem read_of_keys_from (m : Memory) (k j : Nat) (h : m.map Prod.fst = List.range' k m.length) :
    Memory.read m (k + j) = (m.map Prod.snd)[j]? := by
  induction m generalizing k j with
  | nil => simp [Memory.read, unlistedByte]
  | cons c m ih =>
    obtain ⟨a, v⟩ := c
    simp only [List.map_cons, List.length_cons, List.range'_succ, List.cons.injEq] at h
    obtain ⟨ha, ht⟩ := h
    subst ha
    cases j with
    | zero => simp [Memory.read]
    | succ j =>
      have := ih (a + 1) j ht
      simp only [Memory.read, List.map_cons, List.getElem?_cons_succ]
      rw [if_neg (by omega), ← this]
      congr 1
      omega

theorem read_of_keys (m : Memory) (n a : Nat) (h : m.map Prod.fst = List.range n) :
    Memory.read m a = (m.map Prod.snd)[a]? := by
  have hl : m.length = n := by simpa using congrArg List.length h
  have := read_of_keys_from m 0 a (by rw [h, hl, List.range_eq_range'])
  simpa using this

/-- Reading a range of a buffer whose addresses are exactly `0 .. n-1`. -/
theorem readRange_of_keys (m : Memory) (n i c : Nat) (h : m.map Prod.fst = List.range n)
    (hc : i + c ≤ n) :
    Memory.readRange m i c = some (((m.map Prod.snd).drop i).take c) := by
  have hl : m.length = n := by simpa using congrArg List.length h
  induction c generalizing i with
  | zero => simp [Memory.readRange]
  | succ c ih =>
    have hi : i < (m.map Prod.snd).length := by simp; omega
    have h1 : Memory.read m i = some ((m.map Prod.snd)[i]) := by
      rw [read_of_keys m n i h]
      exact List.getElem?_eq_getElem hi
    have h2 := ih (i + 1) (by omega)
    simp only [Memory.readRange, h1, h2]
    rw [List.drop_eq_getElem_cons hi, List.take_succ_cons]

/-- `retained s` has `level` bytes. -/
theorem retained_length (s : State) (h : s.buf.map Prod.fst = List.range s.level) :
    (retained s).length = s.level := by
  have := congrArg List.length h
  simpa [retained] using this

/-- BufRead gives the retained bytes of its range (20_memory.md R41). -/
theorem bufRead_eq (i n : Nat) (s : State) (h : s.buf.map Prod.fst = List.range s.level)
    (hn : i + n ≤ s.level) : bufRead i n s = .ok (((retained s).drop i).take n) := by
  simp [bufRead, hn, readRange_of_keys s.buf s.level i n h hn, retained]

/-- BufAppend stores at `level` (20_memory.md R42). -/
theorem bufAppend_eq (b : Byte) (s : State) (h : s.buf.map Prod.fst = List.range s.level)
    (hc : s.level < s.cfg.bufCap) :
    bufAppend b s = .ok { s with buf := s.buf ++ [(s.level, b)], level := s.level + 1 } := by
  have hw : Memory.write s.buf s.level b = s.buf ++ [(s.level, b)] :=
    write_at_end _ _ _ (by rw [h]; simp)
  simp [bufAppend, hc, hw]

end Sys2Proof.Machine
end

