-- ==== Sys2Proof/Laws/Operands.lean ====
section
/-! SUPPORT. The wire forms as arithmetic: big-endian words, the header's fields, the action payload. -/

namespace Sys2Proof.Machine

/-- `be32` of four bytes is `b0*2^24 + b1*2^16 + b2*2^8 + b3` (00_scope.md R13). -/
theorem wordOf_toNat (b0 b1 b2 b3 : Byte) :
    (wordOf b0 b1 b2 b3).toNat =
      b0.toNat * 2 ^ 24 + b1.toNat * 2 ^ 16 + b2.toNat * 2 ^ 8 + b3.toNat := by
  have h0 := b0.isLt
  have h1 := b1.isLt
  have h2 := b2.isLt
  have h3 := b3.isLt
  simp only [wordOf, BitVec.toNat_append]
  rw [← Nat.shiftLeft_add_eq_or_of_lt h1, ← Nat.shiftLeft_add_eq_or_of_lt h2,
    ← Nat.shiftLeft_add_eq_or_of_lt h3]
  simp only [Nat.shiftLeft_eq]
  omega

@[simp] theorem u32be_length (v : U32) : (u32be v).length = 4 := rfl

@[simp] theorem packHeader_length (t : Byte) (f h l : U32) : (packHeader t f h l).length = 13 := rfl

@[simp] theorem actionPayload_length (u : U32) (k : BitVec 5) : (actionPayload u k).length = 5 := rfl

/-- `u32be` and `be32` are inverse at offset 0. -/
theorem wordOf_u32be (v : U32) :
    wordOf (v.extractLsb' 24 8) (v.extractLsb' 16 8) (v.extractLsb' 8 8) (v.extractLsb' 0 8) = v := by
  apply BitVec.eq_of_toNat_eq
  rw [wordOf_toNat]
  simp only [BitVec.extractLsb'_toNat, Nat.shiftRight_eq_div_pow]
  have := v.isLt
  omega

theorem be32_isSome_iff (s : Bytes) (i : Nat) : (be32 s i).isSome ↔ i + 4 ≤ s.length := by
  have hl : (s.drop i).length = s.length - i := List.length_drop
  unfold be32
  split
  · rename_i h
    rw [h] at hl
    simp only [List.length_cons] at hl
    simp
    omega
  · rename_i h
    simp only [Option.isSome_none, Bool.false_eq_true, false_iff]
    intro hc
    have h4 : 4 ≤ (s.drop i).length := by omega
    match hd : s.drop i with
    | [] => simp [hd] at h4
    | [_] => simp [hd] at h4
    | [_, _] => simp [hd] at h4
    | [_, _, _] => simp [hd] at h4
    | b0 :: b1 :: b2 :: b3 :: r => exact h _ _ _ _ _ hd

theorem be32_append (s r : Bytes) (i : Nat) (h : i + 4 ≤ s.length) : be32 (s ++ r) i = be32 s i := by
  have hd : (s ++ r).drop i = s.drop i ++ r := List.drop_append_of_le_length (by omega)
  have hl : (s.drop i).length = s.length - i := List.length_drop
  unfold be32
  rw [hd]
  match hs : s.drop i with
  | [] => rw [hs] at hl; simp at hl; omega
  | [_] => rw [hs] at hl; simp at hl; omega
  | [_, _] => rw [hs] at hl; simp at hl; omega
  | [_, _, _] => rw [hs] at hl; simp at hl; omega
  | b0 :: b1 :: b2 :: b3 :: q => simp

theorem be32_drop (s : Bytes) (i j : Nat) : be32 (s.drop i) j = be32 s (i + j) := by
  simp [be32, List.drop_drop]

theorem be32_take (s : Bytes) (i n : Nat) (h : i + 4 ≤ n) : be32 (s.take n) i = be32 s i := by
  by_cases hl : n ≤ s.length
  · conv => rhs; rw [← List.take_append_drop n s]
    rw [be32_append _ _ _ (by rw [List.length_take]; omega)]
  · rw [List.take_of_length_le (by omega)]

/-- PeekLength needs the 5-byte prefix (40_codec.md R106). -/
theorem peekLength_isSome_iff (s : Bytes) : (peekLength s).isSome ↔ 5 ≤ s.length := by
  rw [peekLength, be32_isSome_iff]

/-- UnpackHeader's fields (40_codec.md R105). -/
theorem unpackHeader_eq_some (s : Bytes) (h : Header) :
    unpackHeader s = some h ↔
      s[0]? = some h.mtype ∧ be32 s 1 = some h.fl ∧ be32 s 5 = some h.hi ∧ be32 s 9 = some h.lo := by
  unfold unpackHeader
  split
  · rename_i t fl hi lo h1 h2 h3 h4
    rw [h1, h2, h3, h4]
    simp only [Option.some.injEq]
    constructor
    · rintro rfl
      exact ⟨rfl, rfl, rfl, rfl⟩
    · rintro ⟨rfl, rfl, rfl, rfl⟩
      rfl
  · rename_i hno
    simp only [reduceCtorEq, false_iff]
    rintro ⟨h1, h2, h3, h4⟩
    exact hno _ _ _ _ h1 h2 h3 h4

/-- UnpackHeader is defined from 13 bytes on (40_codec.md R105). -/
theorem unpackHeader_isSome (s : Bytes) (h : 13 ≤ s.length) : ∃ hd, unpackHeader s = some hd := by
  have h0 : s[0]? = some (s[0]'(by omega)) := List.getElem?_eq_getElem (by omega)
  obtain ⟨a, ha⟩ := Option.isSome_iff_exists.mp ((be32_isSome_iff s 1).mpr (by omega))
  obtain ⟨b, hb⟩ := Option.isSome_iff_exists.mp ((be32_isSome_iff s 5).mpr (by omega))
  obtain ⟨c, hc⟩ := Option.isSome_iff_exists.mp ((be32_isSome_iff s 9).mpr (by omega))
  exact ⟨⟨s[0], a, b, c⟩, (unpackHeader_eq_some s _).mpr ⟨h0, ha, hb, hc⟩⟩

/-- UnpackHeader reads the first 13 bytes alone. -/
theorem unpackHeader_take (s : Bytes) : unpackHeader (s.take 13) = unpackHeader s := by
  unfold unpackHeader
  rw [be32_take s 1 13 (by omega), be32_take s 5 13 (by omega), be32_take s 9 13 (by omega)]
  congr 1
  cases s <;> simp

theorem unpackHeader_append (s r : Bytes) (h : 13 ≤ s.length) :
    unpackHeader (s ++ r) = unpackHeader s := by
  rw [← unpackHeader_take (s ++ r), List.take_append_of_le_length h, unpackHeader_take]

/-- A header's length field is what PeekLength reads. -/
theorem peekLength_of_unpackHeader (s : Bytes) (h : Header) (hu : unpackHeader s = some h) :
    peekLength s = some h.fl := ((unpackHeader_eq_some s h).mp hu).2.1

theorem tsHi_toNat (ts : U64) : (tsHi ts).toNat = ts.toNat / 2 ^ 32 := by
  have := ts.isLt
  simp only [tsHi, BitVec.extractLsb'_toNat, Nat.shiftRight_eq_div_pow]
  omega

theorem tsLo_toNat (ts : U64) : (tsLo ts).toNat = ts.toNat % 2 ^ 32 := by
  simp [tsLo, BitVec.extractLsb'_toNat]

theorem tsJoin_toNat (hi lo : U32) : (tsJoin hi lo).toNat = hi.toNat * 2 ^ 32 + lo.toNat := by
  simp only [tsJoin, BitVec.toNat_append]
  rw [← Nat.shiftLeft_add_eq_or_of_lt lo.isLt, Nat.shiftLeft_eq]

/-- When ENCODE accepts, and the frame it builds (42_encoder.md R160). -/
theorem encodeFrame_eq_ok (m : Nat) (t : Byte) (ts : U64) (p f : Bytes) :
    encodeFrame m t ts p = .ok f ↔
      8 + p.length ≤ m ∧ ts.toNat < 2 ^ 53 ∧
        f = packHeader t (BitVec.ofNat 32 (8 + p.length)) (tsHi ts) (tsLo ts) ++ p := by
  unfold encodeFrame tsLimit
  split
  · simp; omega
  · split
    · simp; omega
    · rename_i h1 h2
      simp only [Except.ok.injEq]
      constructor
      · rintro rfl
        exact ⟨by omega, by omega, rfl⟩
      · rintro ⟨-, -, rfl⟩
        rfl

end Sys2Proof.Machine
end

