-- ==== Sys2Proof/Laws/Decoder.lean ====
section
/-! SUPPORT. What the byte step and the fold of FEED can do, once (41_decoder.md R121, R122). -/

namespace Sys2Proof.Machine

/-- The state after BufAppend on a buffer whose addresses are `0 .. level-1`. -/
def appended (b : Byte) (s : State) : State :=
  { s with buf := s.buf ++ [(s.level, b)], level := s.level + 1 }

@[simp] theorem appended_level (b : Byte) (s : State) : (appended b s).level = s.level + 1 := rfl
@[simp] theorem appended_cfg (b : Byte) (s : State) : (appended b s).cfg = s.cfg := rfl
@[simp] theorem appended_derr (b : Byte) (s : State) : (appended b s).derr = s.derr := rfl
@[simp] theorem appended_encErr (b : Byte) (s : State) : (appended b s).encErr = s.encErr := rfl
@[simp] theorem appended_cmdErr (b : Byte) (s : State) : (appended b s).cmdErr = s.cmdErr := rfl
@[simp] theorem appended_msgLog (b : Byte) (s : State) : (appended b s).msgLog = s.msgLog := rfl
@[simp] theorem appended_txLog (b : Byte) (s : State) : (appended b s).txLog = s.txLog := rfl
@[simp] theorem appended_results (b : Byte) (s : State) : (appended b s).results = s.results := rfl
@[simp] theorem appended_ended (b : Byte) (s : State) : (appended b s).ended = s.ended := rfl
@[simp] theorem appended_nowMs (b : Byte) (s : State) : (appended b s).nowMs = s.nowMs := rfl
@[simp] theorem appended_inputs (b : Byte) (s : State) : (appended b s).inputs = s.inputs := rfl

@[simp] theorem retained_appended (b : Byte) (s : State) :
    retained (appended b s) = retained s ++ [b] := by
  simp [retained, appended]

theorem appended_keys (b : Byte) (s : State) (h : s.buf.map Prod.fst = List.range s.level) :
    (appended b s).buf.map Prod.fst = List.range (appended b s).level := by
  simp [appended, h, List.range_succ]

theorem headLength_eq (s : State) (h : s.buf.map Prod.fst = List.range s.level)
    (h5 : 5 ≤ s.level) :
    ∃ fl, peekLength (retained s) = some fl ∧ headLength s = .ok fl := by
  have hl := retained_length s h
  obtain ⟨fl, hfl⟩ := Option.isSome_iff_exists.mp
    ((peekLength_isSome_iff (retained s)).mpr (by omega))
  refine ⟨fl, hfl, ?_⟩
  have : be32 (((retained s).drop 1).take 4) 0 = some fl := by
    rw [be32_take _ 0 4 (by omega), be32_drop]
    exact hfl
  simp only [headLength, bufRead_eq 1 4 s h (by omega), this]

/-- What the checks after BufAppend can do: raise MalformedHeader, raise TimestampRangeError, emit the head frame's
Message, or retain the byte. -/
theorem afterAppend_cases (s : State) (h : s.buf.map Prod.fst = List.range s.level) :
    (s.level = 5 ∧ ∃ fl, peekLength (retained s) = some fl ∧ legalLength s.cfg fl = false ∧
      afterAppend s = .ok (raise .malformedHeader s, [])) ∨
    (13 ≤ s.level ∧ ∃ hd, unpackHeader (retained s) = some hd ∧ s.level = 5 + hd.fl.toNat ∧
      2 ^ 21 ≤ hd.hi.toNat ∧ afterAppend s = .ok (raise .timestampRangeError s, [])) ∨
    (13 ≤ s.level ∧ ∃ hd, unpackHeader (retained s) = some hd ∧ s.level = 5 + hd.fl.toNat ∧
      hd.hi.toNat < 2 ^ 21 ∧
      afterAppend s =
        .ok (bufDrop (emit ⟨hd.mtype, tsJoin hd.hi hd.lo, (retained s).drop 13⟩ s),
          [⟨hd.mtype, tsJoin hd.hi hd.lo, (retained s).drop 13⟩])) ∨
    ((s.level = 5 → ∃ fl, peekLength (retained s) = some fl ∧ legalLength s.cfg fl = true) ∧
      (13 ≤ s.level → ∃ fl, peekLength (retained s) = some fl ∧ s.level ≠ 5 + fl.toNat) ∧
      afterAppend s = .ok (s, [])) := by
  have hl := retained_length s h
  by_cases h5 : s.level = 5
  · obtain ⟨fl, hp, hh⟩ := headLength_eq s h (by omega)
    cases hg : legalLength s.cfg fl with
    | false =>
      left
      refine ⟨h5, fl, hp, hg, ?_⟩
      have : (decide (fl.toNat < tsSize) || decide (fl.toNat > s.cfg.maxFrameLen)) = true := by
        simp only [legalLength, Bool.and_eq_false_iff, decide_eq_false_iff_not] at hg
        simp only [Bool.or_eq_true, decide_eq_true_eq]
        omega
      simp [afterAppend, headMalformed, lengthPrefixSize, h5, hh, this]
    | true =>
      right; right; right
      refine ⟨fun _ => ⟨fl, hp, hg⟩, fun h13 => by omega, ?_⟩
      have : (decide (fl.toNat < tsSize) || decide (fl.toNat > s.cfg.maxFrameLen)) = false := by
        simp only [legalLength, Bool.and_eq_true, decide_eq_true_eq] at hg
        simp only [Bool.or_eq_false_iff, decide_eq_false_iff_not]
        omega
      simp [afterAppend, headMalformed, headComplete, h5, hh, this]
  · have hm : headMalformed s = .ok false := by simp [headMalformed, lengthPrefixSize, h5]
    by_cases h13 : 13 ≤ s.level
    · obtain ⟨fl, hp, hh⟩ := headLength_eq s h (by omega)
      by_cases hc : s.level = 5 + fl.toNat
      · obtain ⟨hd, hu⟩ := unpackHeader_isSome (retained s) (by omega)
        have hfl : hd.fl = fl := by
          have := peekLength_of_unpackHeader _ _ hu
          rw [hp] at this
          exact (Option.some.inj this).symm
        have hcomp : headComplete s = .ok true := by
          have h13' : s.level ≥ headerSize := h13
          simp only [headComplete, h13', hh, if_true]
          simpa using hc
        have hb : bufRead 0 13 s = .ok ((retained s).take 13) := by
          simpa using bufRead_eq 0 13 s h (by omega)
        have hu' : unpackHeader ((retained s).take 13) = some hd := by rw [unpackHeader_take, hu]
        have hpay : bufRead 13 (hd.fl.toNat - 8) s = .ok ((retained s).drop 13) := by
          rw [bufRead_eq 13 _ s h (by rw [hfl]; omega)]
          rw [List.take_of_length_le (by rw [List.length_drop, hfl]; omega)]
        have haf : afterAppend s = consumeFrame s := by simp [afterAppend, hm, hcomp]
        by_cases hr : 2 ^ 21 ≤ hd.hi.toNat
        · right; left
          refine ⟨h13, hd, hu, by rw [hfl]; exact hc, hr, ?_⟩
          rw [haf]
          simp only [consumeFrame, headerSize, lengthPrefixSize, tsSize, hb, hu', tsHiLimit]
          simp only [ge_iff_le, hr, if_true]
        · right; right; left
          refine ⟨h13, hd, hu, by rw [hfl]; exact hc, by omega, ?_⟩
          rw [haf]
          simp only [consumeFrame, headerSize, lengthPrefixSize, tsSize, hb, hu', tsHiLimit]
          simp only [ge_iff_le, hr, if_false, hpay]
      · right; right; right
        refine ⟨fun h => absurd h h5, fun _ => ⟨fl, hp, hc⟩, ?_⟩
        simp [afterAppend, hm, headComplete, headerSize, lengthPrefixSize, tsSize, h13, hh, hc]
    · right; right; right
      refine ⟨fun h => absurd h h5, fun h => absurd h h13, ?_⟩
      have : ¬ s.level ≥ headerSize := by simp [headerSize, lengthPrefixSize, tsSize]; omega
      simp [afterAppend, hm, headComplete, this]

/-- ACCEPT_BYTE while the decoder is halted (41_decoder.md R129). -/
theorem acceptByte_halted (b : Byte) (s : State) (h : s.derr ≠ .none) :
    acceptByte b s = .ok (s, []) := by
  simp [acceptByte, h]

/-- ACCEPT_BYTE on a full buffer (60_exceptions.md R202). -/
theorem acceptByte_full (b : Byte) (s : State) (h : s.derr = .none) (hl : s.level = s.cfg.bufCap) :
    acceptByte b s = .ok (raise .bufferOverflow s, []) := by
  simp [acceptByte, h, hl]

/-- ACCEPT_BYTE otherwise: BufAppend and the checks. -/
theorem acceptByte_append (b : Byte) (s : State) (h : s.buf.map Prod.fst = List.range s.level)
    (hd : s.derr = .none) (hl : s.level < s.cfg.bufCap) :
    acceptByte b s = afterAppend (appended b s) := by
  simp [acceptByte, hd, Nat.ne_of_lt hl, bufAppend_eq b s h hl, appended]

/-- The bytes already retained keep the head frame's length when a byte is added. -/
theorem peekLength_appended (b : Byte) (s : State) (fl : U32)
    (h : peekLength (retained s) = some fl) : peekLength (retained (appended b s)) = some fl := by
  have h5 : 5 ≤ (retained s).length := (peekLength_isSome_iff _).mp (by simp [h])
  rw [retained_appended, peekLength, be32_append _ _ _ (by omega)]
  exact h

/-- What `headFrameOk` says while the decoder is running. -/
theorem headFrameOk_running (s : State) (h : s.derr = .none) :
    headFrameOk s = true ↔
      s.level < 5 ∨ ∃ fl, peekLength (retained s) = some fl ∧ legalLength s.cfg fl = true ∧
        s.level < 5 + fl.toNat := by
  unfold headFrameOk
  simp only [h]
  cases hp : peekLength (retained s) <;> simp

/-- What a byte step from a state that meets the invariant can do, in full (41_decoder.md R121).  The six cases are the
six ways out of ACCEPT_BYTE. -/
theorem acceptByte_cases (b : Byte) (s : State) (hi : s.Inv) :
    (s.derr ≠ .none ∧ acceptByte b s = .ok (s, [])) ∨
    (s.derr = .none ∧ s.level = s.cfg.bufCap ∧
      (∃ fl, peekLength (retained s) = some fl ∧ legalLength s.cfg fl = true ∧
        s.cfg.bufCap < 5 + fl.toNat) ∧
      acceptByte b s = .ok (raise .bufferOverflow s, [])) ∨
    (s.derr = .none ∧ s.level = 4 ∧
      (∃ fl, peekLength (retained s ++ [b]) = some fl ∧ legalLength s.cfg fl = false) ∧
      acceptByte b s = .ok (raise .malformedHeader (appended b s), [])) ∨
    (s.derr = .none ∧ s.level < s.cfg.bufCap ∧ 13 ≤ s.level + 1 ∧
      ∃ hd, unpackHeader (retained s ++ [b]) = some hd ∧ legalLength s.cfg hd.fl = true ∧
        s.level + 1 = 5 + hd.fl.toNat ∧ 2 ^ 21 ≤ hd.hi.toNat ∧
        acceptByte b s = .ok (raise .timestampRangeError (appended b s), [])) ∨
    (s.derr = .none ∧ s.level < s.cfg.bufCap ∧ 13 ≤ s.level + 1 ∧
      ∃ hd, unpackHeader (retained s ++ [b]) = some hd ∧ legalLength s.cfg hd.fl = true ∧
        s.level + 1 = 5 + hd.fl.toNat ∧ hd.hi.toNat < 2 ^ 21 ∧
        acceptByte b s =
          .ok (bufDrop (emit ⟨hd.mtype, tsJoin hd.hi hd.lo, (retained s ++ [b]).drop 13⟩
              (appended b s)),
            [⟨hd.mtype, tsJoin hd.hi hd.lo, (retained s ++ [b]).drop 13⟩])) ∨
    (s.derr = .none ∧ s.level < s.cfg.bufCap ∧
      (s.level + 1 < 5 ∨ ∃ fl, peekLength (retained s ++ [b]) = some fl ∧
        legalLength s.cfg fl = true ∧ s.level + 1 < 5 + fl.toNat) ∧
      acceptByte b s = .ok (appended b s, [])) := by
  obtain ⟨hw, hk, hc, hf⟩ := hi
  have hcap : 13 ≤ s.cfg.bufCap := by
    simp only [Config.wf, Bool.and_eq_true, decide_eq_true_eq] at hw
    exact hw.1.1.1
  by_cases hd : s.derr = .none
  · rw [headFrameOk_running s hd] at hf
    by_cases hl : s.level = s.cfg.bufCap
    · right; left
      refine ⟨hd, hl, ?_, acceptByte_full b s hd hl⟩
      rcases hf with h | ⟨fl, h1, h2, h3⟩
      · omega
      · exact ⟨fl, h1, h2, by omega⟩
    · have hlt : s.level < s.cfg.bufCap := by omega
      rw [acceptByte_append b s hk hd hlt]
      have hlegal : ∀ fl, peekLength (retained s ++ [b]) = some fl → 5 ≤ s.level →
          legalLength s.cfg fl = true ∧ s.level < 5 + fl.toNat := by
        intro fl hp h5
        rcases hf with h | ⟨fl', h1, h2, h3⟩
        · omega
        · have := peekLength_appended b s fl' h1
          rw [retained_appended, hp] at this
          cases Option.some.inj this
          exact ⟨h2, h3⟩
      rcases afterAppend_cases (appended b s) (appended_keys b s hk) with
        ⟨h5, fl, hp, hg, he⟩ | ⟨h13, hd', hu, hlv, hr, he⟩ | ⟨h13, hd', hu, hlv, hr, he⟩ |
        ⟨h5, h13, he⟩
      · right; right; left
        simp only [appended_level, retained_appended, appended_cfg] at *
        exact ⟨hd, by omega, ⟨fl, hp, hg⟩, he⟩
      · right; right; right; left
        simp only [appended_level, retained_appended] at *
        exact ⟨hd, hlt, h13, hd', hu,
          (hlegal _ (peekLength_of_unpackHeader _ _ hu) (by omega)).1, hlv, hr, he⟩
      · right; right; right; right; left
        simp only [appended_level, retained_appended] at *
        exact ⟨hd, hlt, h13, hd', hu,
          (hlegal _ (peekLength_of_unpackHeader _ _ hu) (by omega)).1, hlv, hr, he⟩
      · right; right; right; right; right
        simp only [appended_level, retained_appended, appended_cfg] at *
        refine ⟨hd, hlt, ?_, he⟩
        by_cases h4 : s.level + 1 < 5
        · exact .inl h4
        · right
          by_cases h5' : s.level + 1 = 5
          · obtain ⟨fl, hp, hg⟩ := h5 h5'
            refine ⟨fl, hp, hg, ?_⟩
            simp only [legalLength, tsSize, Bool.and_eq_true, decide_eq_true_eq] at hg
            omega
          · have hlen := retained_length s hk
            obtain ⟨fl, hp⟩ := Option.isSome_iff_exists.mp
              ((peekLength_isSome_iff (retained s ++ [b])).mpr (by simp; omega))
            obtain ⟨hg, hlt5⟩ := hlegal fl hp (by omega)
            refine ⟨fl, hp, hg, ?_⟩
            by_cases hge : 13 ≤ s.level + 1
            · obtain ⟨fl', hp', hne⟩ := h13 hge
              rw [hp] at hp'
              cases Option.some.inj hp'
              omega
            · simp only [legalLength, tsSize, Bool.and_eq_true, decide_eq_true_eq] at hg
              omega
  · left
    exact ⟨hd, acceptByte_halted b s hd⟩

/-- A byte step from a state that meets the invariant answers, and keeps the invariant. -/
theorem acceptByte_keeps (b : Byte) (s : State) (hi : s.Inv) :
    ∃ s' ms, acceptByte b s = .ok (s', ms) ∧ s'.Inv := by
  have hi' := hi
  obtain ⟨hw, hk, hc, hf⟩ := hi'
  have hka := appended_keys b s hk
  have hlen := retained_length s hk
  rcases acceptByte_cases b s hi with ⟨_, he⟩ | ⟨hd, hl, ⟨fl, hp, hg, hlt⟩, he⟩ |
    ⟨hd, hl, ⟨fl, hp, hg⟩, he⟩ | ⟨hd, hl, h13, hh, hu, hg, hlv, hr, he⟩ |
    ⟨hd, hl, h13, hh, hu, hg, hlv, hr, he⟩ | ⟨hd, hl, hr, he⟩
  · exact ⟨_, _, he, hi⟩
  · refine ⟨_, _, he, by simpa using hw, by simpa using hk, by simpa using hc, ?_⟩
    have hder : (raise .bufferOverflow s).derr = .bufferOverflow :=
      raiseDecoder_derr_of_none _ _ hd
    simp [headFrameOk, hder, hl, hp, hg, hlt, lengthPrefixSize]
  · refine ⟨_, _, he, by simpa using hw, by simpa using hka, ?_, ?_⟩
    · simp only [Config.wf, Bool.and_eq_true, decide_eq_true_eq] at hw
      simp; omega
    · have hder : (raise .malformedHeader (appended b s)).derr = .malformedHeader :=
        raiseDecoder_derr_of_none _ _ (by simpa using hd)
      simp [headFrameOk, hder, hl, hp, hg, lengthPrefixSize]
  · refine ⟨_, _, he, by simpa using hw, by simpa using hka, by simp; omega, ?_⟩
    have hder : (raise .timestampRangeError (appended b s)).derr = .timestampRangeError :=
      raiseDecoder_derr_of_none _ _ (by simpa using hd)
    simp [headFrameOk, hder, hu, hg, hlv, lengthPrefixSize, tsHiLimit]
    simpa using hr
  · refine ⟨_, _, he, by simpa using hw, by simp, by simp, ?_⟩
    simp [headFrameOk, hd, lengthPrefixSize]
  · refine ⟨_, _, he, by simpa using hw, hka, by simp; omega, ?_⟩
    rw [headFrameOk_running _ (by simpa using hd)]
    simpa using hr

/-- What a byte step leaves alone, whatever it does. -/
theorem acceptByte_frame (b : Byte) (s s' : State) (ms : List Message)
    (h : acceptByte b s = .ok (s', ms)) :
    s'.cfg = s.cfg ∧ s'.encErr = s.encErr ∧ s'.cmdErr = s.cmdErr ∧ s'.txLog = s.txLog ∧
      s'.results = s.results ∧ s'.ended = s.ended ∧ s'.nowMs = s.nowMs ∧
      s'.inputs = s.inputs ∧ s'.msgLog = s.msgLog ++ ms := by
  have hdec : ∀ e u, e = Error.malformedHeader ∨ e = .bufferOverflow ∨ e = .timestampRangeError →
      (raise e u).encErr = u.encErr ∧ (raise e u).cmdErr = u.cmdErr :=
    fun e u he => raise_decoder_flags e he u
  have hcons : ∀ u, consumeFrame u = .ok (s', ms) →
      s'.cfg = u.cfg ∧ s'.encErr = u.encErr ∧ s'.cmdErr = u.cmdErr ∧ s'.txLog = u.txLog ∧
        s'.results = u.results ∧ s'.ended = u.ended ∧ s'.nowMs = u.nowMs ∧
        s'.inputs = u.inputs ∧ s'.msgLog = u.msgLog ++ ms := by
    intro u hu
    unfold consumeFrame at hu
    split at hu
    · cases hu
    · split at hu
      · cases hu
      · split at hu
        · cases hu
          simp [hdec]
        · split at hu
          · cases hu
          · cases hu
            simp
  have hafter : ∀ u, afterAppend u = .ok (s', ms) →
      s'.cfg = u.cfg ∧ s'.encErr = u.encErr ∧ s'.cmdErr = u.cmdErr ∧ s'.txLog = u.txLog ∧
        s'.results = u.results ∧ s'.ended = u.ended ∧ s'.nowMs = u.nowMs ∧
        s'.inputs = u.inputs ∧ s'.msgLog = u.msgLog ++ ms := by
    intro u hu
    unfold afterAppend at hu
    split at hu
    · cases hu
    · cases hu
      simp [hdec]
    · split at hu
      · cases hu
      · exact hcons u hu
      · cases hu
        simp
  unfold acceptByte at h
  split at h
  · cases h
    simp
  · split at h
    · cases h
      simp [hdec]
    · split at h
      · cases h
      · rename_i u hu
        have := hafter u h
        unfold bufAppend at hu
        split at hu
        · cases hu
          exact this
        · cases hu

/-- FEED of two chunks is FEED of the first, then of the second (41_decoder.md R122). -/
theorem feedBytes_append (a b : Bytes) (s : State) :
    feedBytes (a ++ b) s =
      match feedBytes a s with
      | .error f => .error f
      | .ok (u, ms) =>
        match feedBytes b u with
        | .error f => .error f
        | .ok (t, ns) => .ok (t, ms ++ ns) := by
  induction a generalizing s with
  | nil =>
    simp only [List.nil_append, feedBytes]
    cases feedBytes b s <;> rfl
  | cons x a ih =>
    simp only [List.cons_append, feedBytes]
    cases hx : acceptByte x s with
    | error f => rfl
    | ok p =>
      obtain ⟨u, ms⟩ := p
      simp only [ih u]
      cases ha : feedBytes a u with
      | error f => rfl
      | ok q =>
        obtain ⟨v, ns⟩ := q
        simp only
        cases hb : feedBytes b v with
        | error f => rfl
        | ok r => simp [List.append_assoc]

/-- FEED from a state that meets the invariant answers, and keeps the invariant. -/
theorem feedBytes_keeps (bs : Bytes) (s : State) (hi : s.Inv) :
    ∃ t ms, feedBytes bs s = .ok (t, ms) ∧ t.Inv := by
  induction bs generalizing s with
  | nil => exact ⟨s, [], rfl, hi⟩
  | cons b bs ih =>
    obtain ⟨u, ms, hu, hiu⟩ := acceptByte_keeps b s hi
    obtain ⟨t, ns, ht, hit⟩ := ih u hiu
    exact ⟨t, ms ++ ns, by simp [feedBytes, hu, ht], hit⟩

/-- What FEED's byte steps leave alone, and what they append to `msg_log`. -/
theorem feedBytes_frame (bs : Bytes) (s t : State) (ms : List Message)
    (h : feedBytes bs s = .ok (t, ms)) :
    t.cfg = s.cfg ∧ t.encErr = s.encErr ∧ t.cmdErr = s.cmdErr ∧ t.txLog = s.txLog ∧
      t.results = s.results ∧ t.ended = s.ended ∧ t.nowMs = s.nowMs ∧
      t.inputs = s.inputs ∧ t.msgLog = s.msgLog ++ ms := by
  induction bs generalizing s ms with
  | nil =>
    cases h
    simp
  | cons b bs ih =>
    simp only [feedBytes] at h
    split at h
    · cases h
    · rename_i u m1 hu
      split at h
      · cases h
      · rename_i v m2 hv
        cases h
        obtain ⟨a1, a2, a3, a4, a5, a6, a7, a8, a9⟩ := acceptByte_frame b s u m1 hu
        obtain ⟨b1, b2, b3, b4, b5, b6, b7, b8, b9⟩ := ih u m2 hv
        exact ⟨b1.trans a1, b2.trans a2, b3.trans a3, b4.trans a4, b5.trans a5, b6.trans a6,
          b7.trans a7, b8.trans a8, by rw [b9, a9, List.append_assoc]⟩

/-- While the decoder is halted, FEED drops every byte (41_decoder.md R129). -/
theorem feedBytes_halted (bs : Bytes) (s : State) (h : s.derr ≠ .none) :
    feedBytes bs s = .ok (s, []) := by
  induction bs with
  | nil => rfl
  | cons b bs ih => simp [feedBytes, acceptByte_halted b s h, ih]

/-! A byte step, and so FEED, depends on the decoder's part of the state alone (41_decoder.md R121, R134). -/

theorem bufRead_congr (s s' : State) (h : s.SameDecoder s') (i n : Nat) :
    bufRead i n s' = bufRead i n s := by
  simp [bufRead, h.2.1, h.2.2.1]

theorem headLength_congr (s s' : State) (h : s.SameDecoder s') : headLength s' = headLength s := by
  simp [headLength, bufRead_congr s s' h]

theorem raise_congr (e : Error) (s s' : State) (h : s.SameDecoder s') :
    (raise e s).SameDecoder (raise e s') := by
  obtain ⟨h1, h2, h3, h4⟩ := h
  have hd : ∀ d, (raiseDecoder d s').derr = (raiseDecoder d s).derr := by
    intro d
    simp only [raiseDecoder, h4]
    split <;> simp [h4]
  cases e <;> simp [raise, State.SameDecoder, h1, h2, h3, h4, hd]

theorem consumeFrame_congr (s s' u : State) (ms : List Message) (h : s.SameDecoder s')
    (hu : consumeFrame s = .ok (u, ms)) :
    ∃ u', consumeFrame s' = .ok (u', ms) ∧ u.SameDecoder u' := by
  unfold consumeFrame at hu ⊢
  rw [bufRead_congr s s' h]
  split at hu
  · cases hu
  · split at hu
    · cases hu
    · split at hu
      · rename_i hx
        cases hu
        rw [if_pos hx]
        exact ⟨_, rfl, raise_congr _ _ _ h⟩
      · rename_i hx
        rw [if_neg hx, bufRead_congr s s' h]
        split at hu
        · cases hu
        · cases hu
          exact ⟨_, rfl, by simp [State.SameDecoder, h.1, h.2.2.2]⟩

theorem afterAppend_congr (s s' u : State) (ms : List Message) (h : s.SameDecoder s')
    (hu : afterAppend s = .ok (u, ms)) :
    ∃ u', afterAppend s' = .ok (u', ms) ∧ u.SameDecoder u' := by
  have h1 : headMalformed s' = headMalformed s := by
    simp [headMalformed, headLength_congr s s' h, h.1, h.2.2.1]
  have h2 : headComplete s' = headComplete s := by
    simp [headComplete, headLength_congr s s' h, h.2.2.1]
  unfold afterAppend at hu ⊢
  rw [h1, h2]
  split at hu
  · cases hu
  · cases hu
    exact ⟨_, rfl, raise_congr _ _ _ h⟩
  · split at hu
    · cases hu
    · exact consumeFrame_congr _ _ _ _ h hu
    · cases hu
      exact ⟨_, rfl, h⟩

theorem acceptByte_congr (b : Byte) (s s' u : State) (ms : List Message) (h : s.SameDecoder s')
    (hu : acceptByte b s = .ok (u, ms)) :
    ∃ u', acceptByte b s' = .ok (u', ms) ∧ u.SameDecoder u' := by
  have h' := h
  obtain ⟨h1, h2, h3, h4⟩ := h'
  unfold acceptByte bufAppend at hu ⊢
  rw [h1, h2, h3, h4]
  split at hu
  · rename_i hx
    cases hu
    rw [if_pos hx]
    exact ⟨_, rfl, h⟩
  · rename_i hx
    rw [if_neg hx]
    split at hu
    · rename_i hx
      cases hu
      rw [if_pos hx]
      exact ⟨_, rfl, raise_congr _ _ _ h⟩
    · rename_i hx
      rw [if_neg hx]
      split at hu
      · cases hu
      · rename_i hx
        split at hx
        · rename_i hlt
          cases hx
          rw [if_pos hlt]
          refine afterAppend_congr _ _ _ _ ?_ hu
          exact ⟨rfl, rfl, rfl, rfl⟩
        · cases hx

theorem feedBytes_congr (bs : Bytes) (s s' u : State) (ms : List Message) (h : s.SameDecoder s')
    (hu : feedBytes bs s = .ok (u, ms)) :
    ∃ u', feedBytes bs s' = .ok (u', ms) ∧ u.SameDecoder u' := by
  induction bs generalizing s s' ms with
  | nil =>
    cases hu
    exact ⟨_, rfl, h⟩
  | cons b bs ih =>
    simp only [feedBytes] at hu
    split at hu
    · cases hu
    · rename_i s1 m1 h1
      obtain ⟨s1', h1', hs1⟩ := acceptByte_congr _ _ _ _ _ h h1
      split at hu
      · cases hu
      · rename_i s2 m2 h2
        cases hu
        obtain ⟨s2', h2', hs2⟩ := ih _ _ m2 hs1 h2
        exact ⟨s2', by simp [feedBytes, h1', h2'], hs2⟩

/-- FEED's error bit is `derr != NONE` (41_decoder.md R122). -/
theorem isError_eq (d : Derr) : d.isError = decide (d ≠ .none) := by
  cases d <;> rfl

end Sys2Proof.Machine
end

