-- ==== Sys2Proof/Laws/Flags.lean ====
section
/-! SUPPORT. STATUS, LEVEL and dec_error as functions of the three error indications and `level` (10_state.md R29, R30). -/

namespace Sys2Proof.Machine

/-- STATUS of its three indications, as a number (43_control.md R190). -/
theorem statusReg_toNat (s : State) :
    (statusReg s).toNat =
      s.cmdErr.toNat * 16 + s.encErr.toNat * 8 + s.derr.code.toNat * 2 + s.derr.isError.toNat := by
  have h : ∀ (d : Derr) (e c : Bool),
      ((bit32 c <<< 4) ||| (bit32 e <<< 3) ||| (d.code.setWidth 32 <<< 1) |||
        bit32 d.isError).toNat =
        c.toNat * 16 + e.toNat * 8 + d.code.toNat * 2 + d.isError.toNat := by
    intro d e c
    cases d <;> cases e <;> cases c <;> decide
  exact h s.derr s.encErr s.cmdErr

/-- STATUS bit 0 is `derr != NONE` (60_exceptions.md R208). -/
theorem statusReg_bit0 (s : State) : (statusReg s).getLsbD 0 = s.derr.isError := by
  have h : ∀ (d : Derr) (e c : Bool),
      ((bit32 c <<< 4) ||| (bit32 e <<< 3) ||| (d.code.setWidth 32 <<< 1) |||
        bit32 d.isError).getLsbD 0 = d.isError := by
    intro d e c
    cases d <;> cases e <;> cases c <;> decide
  exact h s.derr s.encErr s.cmdErr

@[simp] theorem levelReg_toNat (s : State) : (levelReg s).toNat = s.level % 2 ^ 32 := by
  simp [levelReg]

end Sys2Proof.Machine
end

