-- ==== Sys2Proof/Laws/FrontEnd.lean ====
section
/-! SUPPORT. What each command, each input and a step can do, once: later proofs split on these cases and do not unfold
`exec` or `step`. -/

namespace Sys2Proof.Machine

theorem runEncoder_refused (t : Byte) (ts : U64) (p : Bytes) (s : State) (r : EncodeReason)
    (h : encodeFrame s.cfg.maxFrameLen t ts p = .error r) :
    runEncoder t ts p s =
      pushResult (.frame [] true (some r)) (raise (.encodeInvalidInput r) s) := by
  simp [runEncoder, h]

theorem runEncoder_accepted (t : Byte) (ts : U64) (p f : Bytes) (s : State)
    (h : encodeFrame s.cfg.maxFrameLen t ts p = .ok f) :
    runEncoder t ts p s = pushResult (.frame f false none) (send f s) := by
  simp [runEncoder, h]

/-- What a command that answers does, over all commands (30_encoding.md R72). -/
theorem exec_cases (i : Instr) (s t : State) (h : exec i s = .next t) :
    (∃ chunk u ms, i = .feed chunk ∧ feedBytes chunk s = .ok (u, ms) ∧
      t = pushResult (.feed ms u.derr.isError) u) ∨
    (((∃ m ts p, i = .encode m ts p) ∨ ∃ u k, i = .sendAction u k) ∧
      ((∃ r, t = pushResult (.frame [] true (some r)) (raise (.encodeInvalidInput r) s)) ∨
        ∃ f, t = pushResult (.frame f false none) (send f s))) ∨
    (((∃ ts, i = .tsSplit ts) ∨ (∃ hi lo, i = .tsJoin hi lo) ∨ i = .readStatus) ∧
      ∃ r, t = pushResult r s ∧ r.sent = [] ∧ r.emitted = []) ∨
    (i = .softReset ∧ t = resetBlock (pushResult .none s)) ∨
    (i.isReserved = true ∧ t = illegalCommand s) := by
  have henc : ∀ m ts p, t = runEncoder m ts p s →
      (∃ r, t = pushResult (.frame [] true (some r)) (raise (.encodeInvalidInput r) s)) ∨
        ∃ f, t = pushResult (.frame f false none) (send f s) := by
    intro m ts p ht
    cases hf : encodeFrame s.cfg.maxFrameLen m ts p with
    | error r => exact .inl ⟨r, by rw [ht, runEncoder_refused _ _ _ _ _ hf]⟩
    | ok f => exact .inr ⟨f, by rw [ht, runEncoder_accepted _ _ _ _ _ hf]⟩
  cases i with
  | feed chunk =>
    left
    simp only [exec, execFeed] at h
    split at h
    · cases h
    · rename_i u ms hf
      cases h
      exact ⟨chunk, u, ms, rfl, hf, rfl⟩
  | encode m ts p =>
    right; left
    simp only [exec, execEncode, Host.Outcome.next.injEq] at h
    exact ⟨.inl ⟨m, ts, p, rfl⟩, henc m ts p h.symm⟩
  | sendAction u k =>
    right; left
    simp only [exec, execSendAction, Host.Outcome.next.injEq] at h
    exact ⟨.inr ⟨u, k, rfl⟩, henc _ _ _ h.symm⟩
  | tsSplit ts =>
    right; right; left
    cases h
    exact ⟨.inl ⟨ts, rfl⟩, _, rfl, rfl, rfl⟩
  | tsJoin hi lo =>
    right; right; left
    cases h
    exact ⟨.inr (.inl ⟨hi, lo, rfl⟩), _, rfl, rfl, rfl⟩
  | readStatus =>
    right; right; left
    cases h
    exact ⟨.inr (.inr rfl), _, rfl, rfl, rfl⟩
  | softReset =>
    right; right; right; left
    cases h
    exact ⟨rfl, rfl⟩
  | reserved00 => right; right; right; right; cases h; exact ⟨rfl, rfl⟩
  | reserved08 o => right; right; right; right; cases h; exact ⟨rfl, rfl⟩
  | reserved10 o => right; right; right; right; cases h; exact ⟨rfl, rfl⟩
  | reserved20 o => right; right; right; right; cases h; exact ⟨rfl, rfl⟩
  | reserved40 o => right; right; right; right; cases h; exact ⟨rfl, rfl⟩
  | reserved80 o => right; right; right; right; cases h; exact ⟨rfl, rfl⟩

/-- What a command cut short by `rst` leaves before the reset: outputs added to the logs, and the inputs, the results and
the earlier segments as they were. -/
theorem outputSoFar_frame (i : Instr) (k : Nat) (s t : State) (h : outputSoFar i k s = .ok t) :
    t.cfg = s.cfg ∧ t.results = s.results ∧ t.ended = s.ended ∧ t.nowMs = s.nowMs ∧
      t.inputs = s.inputs ∧ (∃ ms, t.msgLog = s.msgLog ++ ms) ∧ ∃ bs, t.txLog = s.txLog ++ bs := by
  have hsame : ∀ u, Except.ok u = (Except.ok t : Except Fault State) → u = s →
      t.cfg = s.cfg ∧ t.results = s.results ∧ t.ended = s.ended ∧ t.nowMs = s.nowMs ∧
        t.inputs = s.inputs ∧ (∃ ms, t.msgLog = s.msgLog ++ ms) ∧
        ∃ bs, t.txLog = s.txLog ++ bs := by
    intro u hu hs
    cases hu
    subst hs
    exact ⟨rfl, rfl, rfl, rfl, rfl, ⟨[], by simp⟩, ⟨[], by simp⟩⟩
  have hsend : ∀ f, Except.ok (send f s) = (Except.ok t : Except Fault State) →
      t.cfg = s.cfg ∧ t.results = s.results ∧ t.ended = s.ended ∧ t.nowMs = s.nowMs ∧
        t.inputs = s.inputs ∧ (∃ ms, t.msgLog = s.msgLog ++ ms) ∧
        ∃ bs, t.txLog = s.txLog ++ bs := by
    intro f hu
    cases hu
    exact ⟨rfl, rfl, rfl, rfl, rfl, ⟨[], by simp⟩, ⟨f, rfl⟩⟩
  cases i with
  | feed chunk =>
    simp only [outputSoFar] at h
    split at h
    · cases h
    · rename_i u ms hf
      cases h
      obtain ⟨a1, _, _, a4, a5, a6, a7, a8, a9⟩ := feedBytes_frame _ _ _ _ hf
      exact ⟨a1, a5, a6, a7, a8, ⟨ms, a9⟩, ⟨[], by simp [a4]⟩⟩
  | encode m ts p =>
    simp only [outputSoFar] at h
    split at h
    · exact hsame s h rfl
    · exact hsend _ h
  | sendAction u k =>
    simp only [outputSoFar] at h
    split at h
    · exact hsame s h rfl
    · exact hsend _ h
  | tsSplit ts => exact hsame s h rfl
  | tsJoin hi lo => exact hsame s h rfl
  | readStatus => exact hsame s h rfl
  | softReset => exact hsame s h rfl
  | reserved00 => exact hsame s h rfl
  | reserved08 o => exact hsame s h rfl
  | reserved10 o => exact hsame s h rfl
  | reserved20 o => exact hsame s h rfl
  | reserved40 o => exact hsame s h rfl
  | reserved80 o => exact hsame s h rfl

/-- What a step that answers does: it waits, runs a command, resets, or cuts a command short (43_control.md R193;
70_reset_and_hazards.md R240). -/
theorem step_cases (s t : State) (h : step s = .next t) :
    (s.inputs = [] ∧ t = s) ∨
    (∃ c now rest i, s.inputs = .command c now :: rest ∧ decode c = .ok i ∧
      exec i { s with nowMs := now, inputs := rest } = .next t) ∨
    (∃ rest, s.inputs = .rst :: rest ∧ t = resetBlock { s with inputs := rest }) ∨
    (∃ c now k rest i u, s.inputs = .commandCutByRst c now k :: rest ∧ decode c = .ok i ∧
      outputSoFar i k { s with nowMs := now, inputs := rest } = .ok u ∧ t = resetBlock u) := by
  unfold step takeInput at h
  split at h
  · rename_i hin
    cases h
    exact .inl ⟨hin, rfl⟩
  · rename_i x rest hin
    unfold runInput at h
    split at h
    · split at h
      · rename_i c now _ i hd
        exact .inr (.inl ⟨c, now, rest, i, hin, hd, h⟩)
      · cases h
    · cases h
      exact .inr (.inr (.inl ⟨rest, hin, rfl⟩))
    · split at h
      · rename_i c now k _ i hd
        unfold cutByReset at h
        split at h
        · cases h
        · rename_i u hu
          cases h
          exact .inr (.inr (.inr ⟨c, now, k, rest, i, u, hin, hd, hu, rfl⟩))
      · cases h

end Sys2Proof.Machine
end

