-- ==== Sys2Proof/Laws/PerInstr.lean ====
section
/-! SUPPORT. Per instruction: the opcode that `encode` writes is of exactly one row of spec/opcode_table.json, and that
row has the instruction's mnemonic. -/

namespace Sys2Proof.Laws.OpcodeRow

/-- The encoded opcode is of one row, the instruction's own (30_encoding.md R72, R73). -/
def Statement (i : Instr) : Prop := (rowsOf (encode i).op).map OpcodeRow.mnemonic = [i.mnemonic]

theorem feed (chunk : Bytes) : Statement (.feed chunk) := by
  show (rowsOf 0x01).map OpcodeRow.mnemonic = ["FEED"]
  decide

theorem encode (mtype : Byte) (ts : U64) (payload : Bytes) :
    Statement (.encode mtype ts payload) := by
  show (rowsOf 0x02).map OpcodeRow.mnemonic = ["ENCODE"]
  decide

theorem sendAction (userId : U32) (keys : BitVec 5) : Statement (.sendAction userId keys) := by
  show (rowsOf 0x03).map OpcodeRow.mnemonic = ["SEND_ACTION"]
  decide

theorem tsSplit (ts : U64) : Statement (.tsSplit ts) := by
  show (rowsOf 0x04).map OpcodeRow.mnemonic = ["TS_SPLIT"]
  decide

theorem tsJoin (hi lo : U32) : Statement (.tsJoin hi lo) := by
  show (rowsOf 0x05).map OpcodeRow.mnemonic = ["TS_JOIN"]
  decide

theorem readStatus : Statement .readStatus := by
  show (rowsOf 0x06).map OpcodeRow.mnemonic = ["READ_STATUS"]
  decide

theorem softReset : Statement .softReset := by
  show (rowsOf 0x07).map OpcodeRow.mnemonic = ["SOFT_RESET"]
  decide

theorem reserved00 : Statement .reserved00 := by
  show (rowsOf 0x00).map OpcodeRow.mnemonic = ["RESERVED"]
  decide

theorem reserved08 (o : BitVec 3) : Statement (.reserved08 o) := by
  show (rowsOf (0b00001#5 ++ o)).map OpcodeRow.mnemonic = ["RESERVED"]
  revert o
  decide

theorem reserved10 (o : BitVec 4) : Statement (.reserved10 o) := by
  show (rowsOf (0b0001#4 ++ o)).map OpcodeRow.mnemonic = ["RESERVED"]
  revert o
  decide

theorem reserved20 (o : BitVec 5) : Statement (.reserved20 o) := by
  show (rowsOf (0b001#3 ++ o)).map OpcodeRow.mnemonic = ["RESERVED"]
  revert o
  decide

theorem reserved40 (o : BitVec 6) : Statement (.reserved40 o) := by
  show (rowsOf (0b01#2 ++ o)).map OpcodeRow.mnemonic = ["RESERVED"]
  revert o
  decide

theorem reserved80 (o : BitVec 7) : Statement (.reserved80 o) := by
  show (rowsOf (0b1#1 ++ o)).map OpcodeRow.mnemonic = ["RESERVED"]
  revert o
  decide

end Sys2Proof.Laws.OpcodeRow
end

