-- ==== Sys2Proof/Machine/Assembly.lean ====
section
/-! DEFINITION. The assembly syntax of commands and BMAN's API names (30_encoding.md R75).  No rule of the machine reads
either. -/

namespace Sys2Proof.Machine

/-- One upper-case hex digit. -/
def hexDigit (n : Nat) : Char := if n < 10 then Char.ofNat (48 + n) else Char.ofNat (55 + n)

/-- A byte as two hex digits (00_scope.md R12: "in byte listings, `05`"). -/
def hexByte (b : Byte) : List Char := [hexDigit (b.toNat / 16), hexDigit (b.toNat % 16)]

/-- Pieces with `, ` between them. -/
def commaSeparated : List (List Char) → List Char
  | [] => []
  | [x] => x
  | x :: y :: rest => x ++ [',', ' '] ++ commaSeparated (y :: rest)

/-- A byte list `[b0, b1, ...]`, bytes in hex (30_encoding.md R75). -/
def byteListSyntax (bs : Bytes) : List Char := ['['] ++ commaSeparated (bs.map hexByte) ++ [']']

/-- The keys held, by name, bit 0 first (30_encoding.md R70, R75). -/
def keyNames (keys : BitVec 5) : List (List Char) :=
  (if keys.getLsbD 0 then [['U', 'P']] else []) ++
    (if keys.getLsbD 1 then [['D', 'O', 'W', 'N']] else []) ++
    (if keys.getLsbD 2 then [['L', 'E', 'F', 'T']] else []) ++
    (if keys.getLsbD 3 then [['R', 'I', 'G', 'H', 'T']] else []) ++
    (if keys.getLsbD 4 then [['B', 'O', 'M', 'B']] else [])

/-- A key set between braces, U+007B and U+007D (30_encoding.md R75). -/
def keySetSyntax (keys : BitVec 5) : List Char :=
  [Char.ofNat 0x7B] ++ commaSeparated (keyNames keys) ++ [Char.ofNat 0x7D]

/-- An operand as a decimal number. -/
def decimal (n : Nat) : List Char := Nat.toDigits 10 n

/-- A command's operands in assembly syntax, in order (30_encoding.md R75).  A reserved opcode has no syntax. -/
def operandSyntax : Instr → List (List Char)
  | .feed chunk => [byteListSyntax chunk]
  | .encode mtype ts payload => [decimal mtype.toNat, decimal ts.toNat, byteListSyntax payload]
  | .sendAction userId keys => [decimal userId.toNat, keySetSyntax keys]
  | .tsSplit ts => [decimal ts.toNat]
  | .tsJoin hi lo => [decimal hi.toNat, decimal lo.toNat]
  | .readStatus => []
  | .softReset => []
  | .reserved00 => []
  | .reserved08 _ => []
  | .reserved10 _ => []
  | .reserved20 _ => []
  | .reserved40 _ => []
  | .reserved80 _ => []

/-- A command's operand text in assembly syntax; its mnemonic `Instr.mnemonic` stands before it (30_encoding.md R75). -/
def assemblyOperands (i : Instr) : List Char := commaSeparated (operandSyntax i)

/-- BMAN's API name of a mnemonic; READ_STATUS, SOFT_RESET and the reserved opcodes have none (30_encoding.md R75). -/
def apiName : Instr → Option String
  | .feed _ => some "feed(chunk)"
  | .encode _ _ _ => some "encode(messageType, timestamp, payload)"
  | .sendAction _ _ => some "sendAction"
  | .tsSplit _ => some "encodeTimestamp(ts)"
  | .tsJoin _ _ => some "decodeTimestamp(hi, lo)"
  | .readStatus => none
  | .softReset => none
  | .reserved00 => none
  | .reserved08 _ => none
  | .reserved10 _ => none
  | .reserved20 _ => none
  | .reserved40 _ => none
  | .reserved80 _ => none

end Sys2Proof.Machine
end

