-- ==== Sys2Proof/Tests/Slice0.lean ====
section
/-! SUPPORT. The model's own tests.  Expected values are the vectors of spec/95_test_vectors.md and the encodings of
spec/30_encoding.md and spec/opcode_table.json, named at each test.  The witnesses at the end show, for each obligation
with hypotheses, a state and operands that meet all of them. -/

namespace Sys2Proof.Tests

open Sys2Proof.Machine

/-! ### Helpers -/

/-- The spec's default build with 95_test_vectors.md's example action type. -/
def build : Config := { bufCap := 1000, maxFrameLen := 995, actionMsgType := 0x01 }

/-- The build of vector V-D7. -/
def smallBuild : Config := { bufCap := 20, maxFrameLen := 100, actionMsgType := 0x01 }

/-- The fresh block of a build. -/
def idle : State := State.fresh build

/-- A block that retains `bytes` in the decoder state `d`. -/
def holding (c : Config) (bytes : Bytes) (d : Derr) : State :=
  { State.fresh c with
    buf := (List.range bytes.length).zip bytes, level := bytes.length, derr := d }

/-- The next state, where there is one. -/
def after (o : Host.Outcome State Fault Refusal) : Option State :=
  match o with
  | .next t => some t
  | .fault _ => none
  | .refused _ => none

theorem next_of_after (o : Host.Outcome State Fault Refusal) (h : (after o).isSome = true) :
    ∃ t, o = .next t := by
  cases o with
  | next t => exact ⟨t, rfl⟩
  | fault _ => cases h
  | refused _ => cases h

/-- `TS` of 95_test_vectors.md. -/
def ts : U64 := 1700000000000

/-- Scenario A's frame. -/
def frameA : Bytes :=
  [0x05, 0x00, 0x00, 0x00, 0x08, 0x00, 0x00, 0x01, 0x8B, 0xCF, 0xE5, 0x68, 0x00]

/-! ### Decoding: the opcodes of 30_encoding.md R72, R73 -/

theorem test_decode_feed : decodeTableWord 8 0b00000001 = some (.feed []) := by decide

theorem test_decode_feed_operands :
    decode { Command.blank 0b00000001 with len := 3, data := [1, 2, 3] } =
      .ok (.feed [1, 2, 3]) := by
  rfl

theorem test_decode_encode :
    decode { Command.blank 0b00000010 with
      mtype := 5, ts := 1000, len := 2, data := [0xAA, 0xBB] } =
      .ok (.encode 5 1000 [0xAA, 0xBB]) := by
  rfl

theorem test_decode_sendAction :
    decode { Command.blank 0b00000011 with user := 42, keys := 0b10001 } =
      .ok (.sendAction 42 (keyUp ||| keyBomb)) := by
  rfl

theorem test_decode_tsSplit :
    decode { Command.blank 0b00000100 with ts := 0x123456789ABCDEF0 } =
      .ok (.tsSplit 0x123456789ABCDEF0) := by
  rfl

theorem test_decode_tsJoin :
    decode { Command.blank 0b00000101 with hi := 0x18B, lo := 0xCFE56800 } =
      .ok (.tsJoin 0x18B 0xCFE56800) := by
  rfl

theorem test_decode_readStatus : decodeTableWord 8 0b00000110 = some .readStatus := by decide

theorem test_decode_softReset : decodeTableWord 8 0b00000111 = some .softReset := by decide

theorem test_decode_reserved00 : decodeTableWord 8 0b00000000 = some .reserved00 := by decide

theorem test_decode_reserved08 :
    decodeTableWord 8 0b00001101 = some (.reserved08 0b101) := by decide

theorem test_decode_reserved10 :
    decodeTableWord 8 0b00011001 = some (.reserved10 0b1001) := by decide

theorem test_decode_reserved20 :
    decodeTableWord 8 0b00110101 = some (.reserved20 0b10101) := by decide

theorem test_decode_reserved40 :
    decodeTableWord 8 0b01101011 = some (.reserved40 0b101011) := by decide

theorem test_decode_reserved80 :
    decodeTableWord 8 0b11010101 = some (.reserved80 0b1010101) := by decide

/-- The rows of the table do not overlap and leave no opcode out. -/
theorem test_every_opcode_has_one_row : ∀ op : Byte, (rowsOf op).length = 1 := by decide

/-- A byte operand without its stated length is refused by name. -/
theorem test_decode_refuses_length :
    decode { Command.blank 0x01 with len := 2, data := [1] } = .error .operandLength := by
  rfl

/-- 30_encoding.md R75 on 95_test_vectors.md's program P3, line 1. -/
theorem test_assembly_sendAction :
    assemblyOperands (.sendAction 42 0b01100) =
      ['4', '2', ',', ' ', Char.ofNat 0x7B, 'L', 'E', 'F', 'T', ',', ' ', 'R', 'I', 'G', 'H', 'T',
        Char.ofNat 0x7D] := by
  rfl

/-! ### WellFormed: an ill-formed command for each check -/

theorem feed_illFormed_of_le (chunk : Bytes) (h : 2 ^ 32 ≤ chunk.length) :
    (Instr.feed chunk).wf = false := decide_eq_false (Nat.not_lt.mpr h)

theorem encode_illFormed_of_le (payload : Bytes) (h : 2 ^ 32 ≤ payload.length) :
    (Instr.encode 0 0 payload).wf = false := decide_eq_false (Nat.not_lt.mpr h)

theorem test_illFormed_feed : (Instr.feed (List.replicate (2 ^ 32) 0)).wf = false :=
  feed_illFormed_of_le _ (Nat.le_of_eq List.length_replicate.symm)

theorem test_illFormed_encode : (Instr.encode 0 0 (List.replicate (2 ^ 32) 0)).wf = false :=
  encode_illFormed_of_le _ (Nat.le_of_eq List.length_replicate.symm)

/-! ### One step of each command -/

/-- Scenario A, decoding. -/
theorem test_feed_scenarioA :
    (after (exec (.feed frameA) idle)).map (fun t => (t.results, t.level)) =
      some ([.feed [⟨5, ts, []⟩] false], 0) := by
  rfl

/-- Vector V-D11: the error is at the fifth byte after a complete frame, and the frame after it is not decoded. -/
theorem test_feed_error_mid_chunk :
    (after (exec (.feed (frameA ++ [0x09, 0, 0, 0, 0] ++
        [1, 0, 0, 0, 9, 0, 0, 0, 0, 0, 0, 0, 0, 0x10])) idle)).map
        (fun t => (t.results, t.level, t.derr)) =
      some ([.feed [⟨5, ts, []⟩] true], 5, .malformedHeader) := by
  rfl

/-- Vector V-E1. -/
theorem test_encode_payload :
    (after (exec (.encode 5 ts [0xAA, 0xBB, 0xCC, 0xDD]) idle)).map State.txLog =
      some [0x05, 0x00, 0x00, 0x00, 0x0C, 0x00, 0x00, 0x01, 0x8B, 0xCF, 0xE5, 0x68, 0x00,
        0xAA, 0xBB, 0xCC, 0xDD] := by
  rfl

/-- Vector V-E6's rule at vector V-D7's build: both checks fail, and LENGTH is reported. -/
theorem test_encode_length_first :
    (after (exec (.encode 0 (2 ^ 53) (List.replicate 93 0)) (State.fresh smallBuild))).map
        (fun t => (t.results, t.encErr)) =
      some ([.frame [] true (some .length)], true) := by
  rfl

/-- Vector V-E8. -/
theorem test_sendAction :
    (after (exec (.sendAction 7 (keyUp ||| keyBomb)) { idle with nowMs := ts })).map
        State.txLog =
      some [0x01, 0x00, 0x00, 0x00, 0x0D, 0x00, 0x00, 0x01, 0x8B, 0xCF, 0xE5, 0x68, 0x00,
        0x00, 0x00, 0x00, 0x07, 0x11] := by
  rfl

/-- Vector V-E11. -/
theorem test_sendAction_clock_out_of_range :
    (after (exec (.sendAction 7 keyUp) { idle with nowMs := 2 ^ 53 })).map
        (fun t => (t.results, t.txLog)) =
      some ([.frame [] true (some .timestamp)], []) := by
  rfl

/-- Vector V-C4. -/
theorem test_tsSplit :
    (after (exec (.tsSplit 9007199254740991) idle)).map State.results =
      some [.split 0x001FFFFF 0xFFFFFFFF] := by
  rfl

/-- Vector V-C6. -/
theorem test_tsJoin :
    (after (exec (.tsJoin 0x0000018B 0xCFE56800) idle)).map State.results =
      some [.join 1700000000000] := by
  rfl

/-- Vector V-K4. -/
theorem test_readStatus_all_errors :
    (after (exec .readStatus
        { holding build [0x09, 0, 0, 0, 0] .malformedHeader with
          encErr := true, cmdErr := true })).map State.results =
      some [.status 0x0000001B 0x00000005] := by
  rfl

/-- Vector V-K5. -/
theorem test_softReset :
    (after (exec .softReset (holding build [0x09, 0, 0, 0, 0] .malformedHeader))).map
        (fun t => (t.level, t.derr, statusReg t)) =
      some (0, .none, 0x00000000) := by
  rfl

/-- Vector V-K2. -/
theorem test_reserved00 :
    (after (exec .reserved00 idle)).map (fun t => (statusReg t, t.results)) =
      some (0x00000010, [.none]) := by
  rfl

/-- 43_control.md R192's example: command 0x08. -/
theorem test_reserved08 :
    (after (exec (.reserved08 0) idle)).map statusReg = some 0x00000010 := by rfl

theorem test_reserved10 :
    (after (exec (.reserved10 5) idle)).map statusReg = some 0x00000010 := by rfl

theorem test_reserved20 :
    (after (exec (.reserved20 5) idle)).map statusReg = some 0x00000010 := by rfl

theorem test_reserved40 :
    (after (exec (.reserved40 5) idle)).map statusReg = some 0x00000010 := by rfl

/-- Vector V-K3: command 0xFF. -/
theorem test_reserved80 :
    (after (exec (.reserved80 0x7F) idle)).map statusReg = some 0x00000010 := by rfl

/-- Every opcode byte runs as the first command after reset. -/
theorem test_first_step_after_reset :
    ∀ op : Byte, (after (step (State.reset.withFetchWord 8 op.toNat))).isSome = true := by
  decide +kernel

/-! ### Witnesses: states and operands that meet all hypotheses of an obligation -/

/-- The fresh block with inputs placed. -/
def queued (xs : List Input) : State := { idle with inputs := xs }

/-- The queue with one command. -/
def queuedCommand (i : Instr) : State := queued [.command (encode i) 0]

/-- A block halted by vector V-D3. -/
def halted : State := holding build [0x09, 0, 0, 0, 0] .malformedHeader

/-- Vector V-D7's block just before the byte that overflows. -/
def full : State := holding smallBuild [3, 0, 0, 0, 20, 0, 0, 0, 0, 0, 0, 0, 0, 0, 1, 2, 3, 4, 5, 6] .none

theorem idle_inv : idle.Inv := by decide

theorem halted_inv : halted.Inv := by decide

theorem full_inv : full.Inv := by decide

theorem witness_HardwareResetActsAsSoftReset : (queued [.rst]).inputs = .rst :: [] := rfl

theorem witness_ResetDuringFeedKeepsMessagesAlreadyOutput :
    let s := queued [.commandCutByRst (encode (.feed (frameA ++ [1]))) 0 13]
    s.Inv ∧ (Instr.feed (frameA ++ [1])).wf = true ∧
      s.inputs = .commandCutByRst (encode (.feed (frameA ++ [1]))) 0 13 :: [] :=
  ⟨by decide, by decide, rfl⟩

theorem witness_ResetDuringEncodeKeepsBytesAlreadySent :
    let s := queued [.commandCutByRst (encode (.encode 5 ts [])) 0 7]
    (Instr.encode 5 ts []).wf = true ∧
      s.inputs = .commandCutByRst (encode (.encode 5 ts [])) 0 7 :: [] :=
  ⟨by decide, rfl⟩

theorem witness_StepRunsTheDecodedCommand :
    (queued [.command (Command.blank 0x06) 9]).inputs = .command (Command.blank 0x06) 9 :: [] ∧
      decode (Command.blank 0x06) = .ok .readStatus :=
  ⟨rfl, rfl⟩

theorem witness_StepRunsTheEncodedCommand :
    (Instr.feed frameA).wf = true ∧
      (queuedCommand (.feed frameA)).inputs = .command (encode (.feed frameA)) 0 :: [] :=
  ⟨by decide, rfl⟩

theorem witness_StepWithoutInputWaits : idle.inputs = [] := rfl

theorem witness_StepTakesTheOldestInputOnly :
    let s := queued [.command (encode .readStatus) 0, .rst]
    s.inputs = .command (encode .readStatus) 0 :: [.rst] ∧ ∃ t, step s = .next t :=
  ⟨rfl, _, rfl⟩

theorem witness_DecodeRefusesOnlyWrongOperandLength :
    (let c : Command := { Command.blank 0xFF with data := [1] }; c.op ≠ 0x01#8 ∧ c.op ≠ 0x02#8) ∧
    (let c : Command := { Command.blank 0x02 with len := 1, data := [1] };
      c.data.length = c.len.toNat) ∧
    (let c : Command := { Command.blank 0x01 with len := 2, data := [1] };
      (queued [.command c 0]).inputs = .command c 0 :: [] ∧ c.op = 0x01#8 ∧
        c.data.length ≠ c.len.toNat) :=
  ⟨by decide, by decide, rfl, by decide, by decide⟩

theorem witness_DecodeOfEncodeIsTheCommand : (Instr.encode 5 ts [1, 2]).wf = true := by decide

theorem witness_EncodeOfDecodeKeepsOpcodeAndOperands :
    decode { Command.blank 0x01 with len := 1, data := [7] } = .ok (.feed [7]) ∧
    decode { Command.blank 0x02 with mtype := 5, ts := 9, len := 1, data := [7] } =
      .ok (.encode 5 9 [7]) ∧
    decode { Command.blank 0x03 with user := 3, keys := 31 } = .ok (.sendAction 3 31) ∧
    decode { Command.blank 0x04 with ts := 9 } = .ok (.tsSplit 9) ∧
    decode { Command.blank 0x05 with hi := 1, lo := 2 } = .ok (.tsJoin 1 2) :=
  ⟨rfl, rfl, rfl, rfl, rfl⟩

theorem witness_EveryOpcodeIsOfOneRow :
    decode (Command.blank 0x7F) = .ok (.reserved40 0x3F) := by decide

theorem witness_CodecHoldsNoState :
    (∃ t, Instr.tsSplit ts = .tsSplit t) ∧ ∃ hi lo, Instr.tsJoin 1 2 = .tsJoin hi lo :=
  ⟨⟨_, rfl⟩, _, _, rfl⟩

theorem witness_BigEndianHelpersFollowTheirRule :
    let s : Bytes := [9, 1, 2, 3, 4]
    s[1]? = some 1 ∧ s[1 + 1]? = some 2 ∧ s[1 + 2]? = some 3 ∧ s[1 + 3]? = some 4 :=
  ⟨rfl, rfl, rfl, rfl⟩

/-- Clauses 1 and 2: halted, and the buffer full. -/
theorem witness_FeedOfOneByteFollowsAcceptByte_drop_and_overflow :
    (halted.Inv ∧ halted.derr ≠ .none) ∧
      (full.Inv ∧ full.derr = .none ∧ full.level = full.cfg.bufCap) := by
  decide

/-- Clause 3 at the frameLengths 7 and 996 next to the legal ones (vectors V-D4, V-D5). -/
theorem witness_FeedOfOneByteFollowsAcceptByte_malformed :
    (let s := holding build [9, 0, 0, 0] .none;
      s.Inv ∧ s.derr = .none ∧ s.level ≠ s.cfg.bufCap ∧ s.level + 1 = 5 ∧
        be32 (retained s ++ [7]) 1 = some 7) ∧
    (let s := holding build [9, 0, 0, 3] .none;
      s.Inv ∧ s.derr = .none ∧ s.level ≠ s.cfg.bufCap ∧ s.level + 1 = 5 ∧
        be32 (retained s ++ [0xE4]) 1 = some 996 ∧ s.cfg.maxFrameLen < 996) := by
  decide

/-- Clause 4 at the timestamps next to `2^53` (vectors V-D9, V-D10). -/
theorem witness_FeedOfOneByteFollowsAcceptByte_complete :
    (let s := holding build [6, 0, 0, 0, 8, 0, 0x20, 0, 0, 0, 0, 0] .none;
      s.Inv ∧ s.derr = .none ∧ s.level ≠ s.cfg.bufCap ∧ 13 ≤ s.level + 1 ∧
        unpackHeader (retained s ++ [0]) = some ⟨6, 8, 2 ^ 21, 0⟩ ∧ s.level + 1 = 5 + 8) ∧
    (let s := holding build [6, 0, 0, 0, 8, 0, 0x1F, 0xFF, 0xFF, 0xFF, 0xFF, 0xFF] .none;
      s.Inv ∧ s.derr = .none ∧ s.level ≠ s.cfg.bufCap ∧ 13 ≤ s.level + 1 ∧
        unpackHeader (retained s ++ [0xFF]) = some ⟨6, 8, 2 ^ 21 - 1, 0xFFFFFFFF⟩ ∧
        s.level + 1 = 5 + 8) := by
  decide

/-- Clause 5: the prefix completes with the legal frameLengths 8 and 995, and a header completes before its payload. -/
theorem witness_FeedOfOneByteFollowsAcceptByte_retained :
    (let s := holding build [9, 0, 0, 0] .none;
      s.Inv ∧ s.derr = .none ∧ s.level ≠ s.cfg.bufCap ∧ be32 (retained s ++ [8]) 1 = some 8 ∧
        ¬ 13 ≤ s.level + 1) ∧
    (let s := holding build [9, 0, 0, 3] .none;
      s.Inv ∧ s.derr = .none ∧ s.level ≠ s.cfg.bufCap ∧
        be32 (retained s ++ [0xE3]) 1 = some 995 ∧ 995 ≤ s.cfg.maxFrameLen ∧
        ¬ 13 ≤ s.level + 1) ∧
    (let s := holding build [9, 0, 0, 0, 9, 0, 0, 0, 0, 0, 0, 0] .none;
      s.Inv ∧ s.derr = .none ∧ s.level ≠ s.cfg.bufCap ∧ s.level + 1 ≠ 5 ∧
        be32 (retained s ++ [0]) 1 = some 9 ∧ s.level + 1 ≠ 5 + 9) := by
  decide

theorem witness_FeedFoldsTheByteStep : idle.Inv := by decide

theorem witness_FeedAnswersAndLeavesTheRest : full.Inv := by decide

theorem witness_FeedAfterAnErrorDropsEveryByte :
    halted.derr ≠ .none ∧ Instr.readStatus ≠ .softReset ∧
      (∃ t, exec .readStatus halted = .next t) ∧ ∃ t, exec .softReset halted = .next t :=
  ⟨by decide, by decide, ⟨_, rfl⟩, _, rfl⟩

theorem witness_DecoderErrorsAreTerminal :
    let s : State := { halted with inputs := [.command (encode (.feed frameA)) 0] }
    s.derr ≠ .none ∧ s.resetNext = false ∧ ∃ t, step s = .next t :=
  ⟨by decide, by decide, _, rfl⟩

theorem witness_FeedWithoutACompleteFrameKeepsEveryByte :
    idle.Inv ∧ ∃ t, exec (.feed [5, 0]) idle = .next t ∧ t.msgLog = idle.msgLog ∧
      t.derr = .none :=
  ⟨by decide, _, rfl, rfl, rfl⟩

theorem witness_ChunkBoundariesDoNotMatter :
    idle.Inv ∧ ∃ t, exec (.feed ([5, 0] ++ [0, 0, 8])) idle = .next t :=
  ⟨by decide, _, rfl⟩

theorem witness_FeedAgreesWithTheChunkAlgorithm :
    idle.Inv ∧ idle.derr = .none ∧
      ∃ t, exec (.feed (frameA ++ [7, 0])) idle = .next t ∧ t.derr = .none :=
  ⟨by decide, rfl, _, rfl, rfl⟩

theorem witness_RetainedBytesAreOneIncompleteFrame :
    idle.Inv ∧ ∃ t, exec (.feed (frameA ++ [7, 0, 0, 0, 9])) idle = .next t ∧
      t.derr = .none ∧ ¬ t.level ≤ 4 :=
  ⟨by decide, _, rfl, rfl, by decide⟩

theorem witness_EmittedMessagesAreInRange :
    idle.Inv ∧ ∃ t, exec (.feed frameA) idle = .next t ∧ t.msgLog = idle.msgLog ++ [⟨5, ts, []⟩] :=
  ⟨by decide, _, rfl, rfl⟩

theorem witness_DecoderErrorIsPreciseInStreamOrder :
    idle.Inv ∧ ∃ u v, exec (.feed (frameA ++ [9, 0, 0, 0])) idle = .next u ∧ u.derr = .none ∧
      exec (.feed [0]) u = .next v ∧ v.derr ≠ .none :=
  ⟨by decide, _, _, rfl, rfl, rfl, by decide⟩

theorem witness_DefaultBuildNeverOverflows :
    let s := queuedCommand (.feed frameA)
    s.Inv ∧ s.cfg.maxFrameLen + 5 ≤ s.cfg.bufCap ∧ s.derr ≠ .bufferOverflow ∧
      ∃ t, step s = .next t :=
  ⟨by decide, by decide, by decide, _, rfl⟩

theorem witness_DecoderReadsNoEncoderState :
    idle.SameDecoder { idle with encErr := true, cmdErr := true, txLog := [1] } ∧
      ∃ t, exec (.feed frameA) idle = .next t :=
  ⟨by decide, _, rfl⟩

/-- ENCODE's clauses at `L = MAX_FRAME_LEN - 7`, `L = MAX_FRAME_LEN - 8` and the timestamps next to `2^53`. -/
theorem witness_EncodeFollowsItsRule :
    idle.cfg.wf = true ∧ idle.cfg.maxFrameLen < 8 + (List.replicate 988 (0 : Byte)).length ∧
      8 + (List.replicate 987 (0 : Byte)).length ≤ idle.cfg.maxFrameLen ∧
      2 ^ 53 ≤ (9007199254740992 : U64).toNat ∧ (9007199254740991 : U64).toNat < 2 ^ 53 :=
  ⟨by decide, by rw [List.length_replicate]; decide, by rw [List.length_replicate]; decide,
    by decide, by decide⟩

theorem witness_EncoderIsStateless : idle.cfg.maxFrameLen = 995 := rfl

/-- SEND_ACTION's clauses at `MAX_FRAME_LEN = 12` and `13` and the clocks next to `2^53`. -/
theorem witness_SendActionFollowsItsRule :
    (let s := State.fresh { build with maxFrameLen := 12 };
      s.cfg.wf = true ∧ s.cfg.maxFrameLen < 13) ∧
    (let s : State := { State.fresh { build with maxFrameLen := 13 } with nowMs := 2 ^ 53 };
      s.cfg.wf = true ∧ 13 ≤ s.cfg.maxFrameLen ∧ 2 ^ 53 ≤ s.nowMs.toNat) ∧
    (let s : State := { State.fresh { build with maxFrameLen := 13 } with nowMs := 2 ^ 53 - 1 };
      s.cfg.wf = true ∧ 13 ≤ s.cfg.maxFrameLen ∧ s.nowMs.toNat < 2 ^ 53) := by
  decide

theorem witness_FeedOfAnEncodedFrameIsTheMessage :
    idle.Inv ∧ idle.derr = .none ∧ idle.level = 0 ∧ 13 + ([] : Bytes).length ≤ idle.cfg.bufCap ∧
      (∃ u, exec (.encode 5 ts []) idle = .next u ∧
        u.results = idle.results ++ [.frame frameA false none]) ∧
      [frameA.take 7, [], frameA.drop 7].flatten = frameA :=
  ⟨by decide, rfl, rfl, by decide, ⟨_, rfl, rfl⟩, rfl⟩

/-- Program P1's two frames, cut at byte 7. -/
theorem witness_MessagesLeaveInFrameOrder :
    let ms : List Message := [⟨0x10, 1000, [1, 2]⟩, ⟨0x11, 2000, []⟩]
    let f1 : Bytes := [0x10, 0, 0, 0, 0x0A, 0, 0, 0, 0, 0, 0, 3, 0xE8, 1, 2]
    let f2 : Bytes := [0x11, 0, 0, 0, 8, 0, 0, 0, 0, 0, 0, 7, 0xD0]
    idle.Inv ∧ idle.derr = .none ∧ idle.level = 0 ∧
      (∀ m ∈ ms, 13 + m.payload.length ≤ idle.cfg.bufCap) ∧
      ms.map (fun m => encodeFrame idle.cfg.maxFrameLen m.messageType m.timestamp m.payload) =
        [f1, f2].map Except.ok ∧
      [f1.take 7, f1.drop 7 ++ f2].flatten = [f1, f2].flatten :=
  ⟨by decide, rfl, rfl, by decide, rfl, rfl⟩

theorem witness_DecErrorSurfacesTheDecoderError :
    (∃ t, exec (.feed [1]) halted = .next t) ∧
      (let s : State := { halted with inputs := [.command (encode .readStatus) 0] };
        decError s = true ∧ s.resetNext = false ∧ ∃ t, step s = .next t) :=
  ⟨⟨_, rfl⟩, by decide, by decide, _, rfl⟩

theorem witness_ReservedFormsSetCmdErrOnly : (Instr.reserved80 0x7F).isReserved = true := rfl

theorem witness_ReservedOpcodesAreIllegal :
    (let c := Command.blank 0x00;
      c.op = 0x00#8 ∧ (queued [.command c 0]).inputs = .command c 0 :: []) ∧
    (let c := Command.blank 0x08;
      8 ≤ c.op.toNat ∧ (queued [.command c 0]).inputs = .command c 0 :: []) ∧
    (let c := Command.blank 0xFF;
      8 ≤ c.op.toNat ∧ (queued [.command c 0]).inputs = .command c 0 :: []) := by
  decide

theorem witness_EncErrIsStickyAndStopsNothing :
    (∃ t, exec (.encode 0 (2 ^ 53) []) idle = .next t ∧
      t.results = idle.results ++ [.frame [] true (some .timestamp)]) ∧
    (let s : State := { queuedCommand (.encode 5 ts []) with encErr := true };
      s.encErr = true ∧ s.resetNext = false ∧ ∃ t, step s = .next t) ∧
    (∃ t, exec (.encode 5 ts []) idle = .next t) ∧
    ∃ t, exec (.sendAction 7 1) idle = .next t :=
  ⟨⟨_, rfl, rfl⟩, ⟨rfl, by decide, _, rfl⟩, ⟨_, rfl⟩, _, rfl⟩

theorem witness_CmdErrIsSticky :
    ((Instr.reserved08 0).isReserved = true ∧ ∃ t, exec (.reserved08 0) idle = .next t) ∧
      (let s : State := { queuedCommand (.feed frameA) with cmdErr := true };
        s.cmdErr = true ∧ s.resetNext = false ∧ ∃ t, step s = .next t) :=
  ⟨⟨rfl, _, rfl⟩, rfl, by decide, _, rfl⟩

/-- Each indication does change, by a command of its own unit. -/
theorem witness_ErrorIndicationsAreIndependent :
    (∃ t, exec (.feed [9, 0, 0, 0, 7]) idle = .next t ∧ t.derr ≠ idle.derr) ∧
      (∃ t, exec (.encode 0 (2 ^ 53) []) idle = .next t ∧ t.encErr ≠ idle.encErr) ∧
      ∃ t, exec .reserved00 idle = .next t ∧ t.cmdErr ≠ idle.cmdErr :=
  ⟨⟨_, rfl, by decide⟩, ⟨_, rfl, by decide⟩, _, rfl, by decide⟩

/-- The smallest legal build, and V-D7's. -/
theorem witness_InvariantHoldsAtReset :
    ({ bufCap := 13, maxFrameLen := 8, actionMsgType := 0 } : Config).wf = true ∧
      smallBuild.wf = true := by
  decide

theorem witness_StepKeepsTheInvariant :
    let s := queuedCommand (.feed (frameA ++ [7]))
    s.Inv ∧ ∃ t, step s = .next t :=
  ⟨by decide, _, rfl⟩

theorem witness_StepNeverFaults :
    ({ full with inputs := [.command (encode (.feed [7, 8])) 0] } : State).Inv := by
  decide

theorem witness_StepKeepsTheBufferCanonical :
    let s : State := { full with inputs := [.command (encode (.feed [7])) 0] }
    Memory.wf s.buf = true ∧ ∃ t, step s = .next t :=
  ⟨by decide, _, rfl⟩

theorem witness_StepKeepsTheBuild : ∃ t, step (queued [.rst]) = .next t := ⟨_, rfl⟩

theorem witness_LogsOnlyGrow :
    (let s := queuedCommand (.feed frameA);
      (∃ t, step s = .next t) ∧ s.resetNext = false) ∧
    (let s := queuedCommand .softReset;
      (∃ t, step s = .next t) ∧ s.resetNext = true) :=
  ⟨⟨⟨_, rfl⟩, by decide⟩, ⟨_, rfl⟩, by decide⟩

theorem witness_StepKeepsTheLogsInCommandOrder :
    let s : State := { queuedCommand (.feed frameA) with
      msgLog := [⟨1, 2, []⟩], txLog := [3],
      results := [.feed [⟨1, 2, []⟩] false, .frame [3] false none] }
    s.LogsAgree ∧ ∃ t, step s = .next t :=
  ⟨by decide, _, rfl⟩

theorem witness_TxPortSendsHeaderThenPayload :
    ({ idle with txLog := frameA, results := [.frame frameA false none] } : State).LogsAgree := by
  decide

theorem witness_EveryInputIsWorkedOff :
    let s := queued [.command (encode (.feed frameA)) 0, .rst,
      .commandCutByRst (encode .readStatus) 0 1]
    s.Inv ∧ ∀ x ∈ s.inputs, match x with
      | .command c _ => ∃ i, decode c = .ok i
      | .rst => True
      | .commandCutByRst c _ _ => ∃ i, decode c = .ok i := by
  refine ⟨by decide, fun x hx => ?_⟩
  obtain rfl | rfl | rfl : x = _ ∨ x = _ ∨ x = _ := by simpa [queued] using hx
  · exact ⟨_, rfl⟩
  · trivial
  · exact ⟨_, rfl⟩

end Sys2Proof.Tests
end

section
/-! PROOFS. The big-endian helpers by their formulas (00_scope.md R13). -/

namespace Sys2Proof.Machine

/-- `be32` joins the four bytes that stand at offset `i` (00_scope.md R13). -/
theorem be32_of_getElem? (s : Bytes) (i : Nat) (b0 b1 b2 b3 : Byte)
    (h0 : s[i]? = some b0) (h1 : s[i + 1]? = some b1) (h2 : s[i + 2]? = some b2)
    (h3 : s[i + 3]? = some b3) : be32 s i = some (wordOf b0 b1 b2 b3) := by
  have hd : s.drop i = b0 :: b1 :: b2 :: b3 :: s.drop (i + 4) := by
    rw [List.drop_eq_getElem?_toList_append, List.drop_eq_getElem?_toList_append (i := i + 1),
      List.drop_eq_getElem?_toList_append (i := i + 2),
      List.drop_eq_getElem?_toList_append (i := i + 3), h0, h1, h2, h3]
    rfl
  simp only [be32, hd]

/-- `u32be` writes the quotients of `v`, most significant byte first (00_scope.md R13). -/
theorem u32be_map_toNat (v : U32) :
    (u32be v).map BitVec.toNat =
      [v.toNat / 2 ^ 24, v.toNat / 2 ^ 16 % 2 ^ 8, v.toNat / 2 ^ 8 % 2 ^ 8, v.toNat % 2 ^ 8] := by
  have htop : v.toNat / 2 ^ 24 % 2 ^ 8 = v.toNat / 2 ^ 24 := Nat.mod_eq_of_lt (by omega)
  simp only [u32be, List.map_cons, List.map_nil, BitVec.extractLsb'_toNat,
    Nat.shiftRight_eq_div_pow, htop, Nat.pow_zero, Nat.div_one]

/-- Settles O19: `be32` finds its four bytes and joins them, and `u32be` slices the word. -/
theorem bigEndianHelpersFollowTheirRule : Obligations.BigEndianHelpersFollowTheirRule :=
  ⟨fun s i b0 b1 b2 b3 h0 h1 h2 h3 =>
    ⟨wordOf b0 b1 b2 b3, be32_of_getElem? s i b0 b1 b2 b3 h0 h1 h2 h3, wordOf_toNat b0 b1 b2 b3⟩,
    u32be_map_toNat⟩

end Sys2Proof.Machine
end

section
/-! PROOFS. The invariant: a reset establishes it, and every command and every step keep it (10_state.md R21, R22, R34). -/

namespace Sys2Proof.Machine

/-- The invariant speaks of the decoder's part of the state alone. -/
theorem inv_of_sameDecoder (s t : State) (h : s.SameDecoder t) (hi : s.Inv) : t.Inv := by
  obtain ⟨hcfg, hbuf, hlevel, hderr⟩ := h
  simpa only [State.Inv, headFrameOk, retained, hcfg, hbuf, hlevel, hderr] using hi

/-- The fresh block of a legal build retains nothing, so it meets the invariant. -/
theorem fresh_inv (c : Config) (hc : c.wf = true) : (State.fresh c).Inv :=
  ⟨hc, rfl, Nat.zero_le _, (headFrameOk_running _ rfl).mpr (.inl (by decide : 0 < 5))⟩

/-- A reset establishes the invariant in every legal build. -/
theorem resetBlock_inv (s : State) (hc : s.cfg.wf = true) : (resetBlock s).Inv :=
  inv_of_sameDecoder (State.fresh s.cfg) (resetBlock s) ⟨rfl, rfl, rfl, rfl⟩ (fresh_inv s.cfg hc)

/-- Only FEED and SOFT_RESET write the decoder's part of the state (41_decoder.md R122; 43_control.md R191). -/
theorem exec_decoder_cases (i : Instr) (s t : State) (h : exec i s = .next t) :
    (∃ chunk u ms, i = .feed chunk ∧ feedBytes chunk s = .ok (u, ms) ∧
      t = pushResult (.feed ms u.derr.isError) u) ∨
    (i = .softReset ∧ t = resetBlock (pushResult .none s)) ∨ s.SameDecoder t := by
  rcases exec_cases i s t h with hfeed | ⟨-, ⟨r, rfl⟩ | ⟨f, rfl⟩⟩ | ⟨-, r, rfl, -, -⟩ | hreset |
    ⟨-, rfl⟩
  · exact .inl hfeed
  · exact .inr (.inr (by simp [State.SameDecoder]))
  · exact .inr (.inr (by simp [State.SameDecoder]))
  · exact .inr (.inr (by simp [State.SameDecoder]))
  · exact .inr (.inl hreset)
  · exact .inr (.inr (by simp [State.SameDecoder, illegalCommand]))

/-- Every command keeps the invariant. -/
theorem exec_keeps_inv (i : Instr) (s t : State) (hi : s.Inv) (h : exec i s = .next t) :
    t.Inv := by
  rcases exec_decoder_cases i s t h with ⟨chunk, u, ms, -, hu, rfl⟩ | ⟨-, rfl⟩ | hsame
  · obtain ⟨u', ms', hu', hiu⟩ := feedBytes_keeps chunk s hi
    rw [hu] at hu'
    cases hu'
    exact inv_of_sameDecoder u _ ⟨rfl, rfl, rfl, rfl⟩ hiu
  · exact resetBlock_inv _ hi.1
  · exact inv_of_sameDecoder s t hsame hi

/-- Settles O50: by the ways a step answers.  A command keeps the invariant, and a reset, which may cut a command short,
establishes it again in the same legal build. -/
theorem stepKeepsTheInvariant : Obligations.StepKeepsTheInvariant := by
  intro s t hi h
  rcases step_cases s t h with ⟨-, rfl⟩ | ⟨c, now, rest, i, -, -, he⟩ | ⟨rest, -, rfl⟩ |
    ⟨c, now, k, rest, i, u, -, -, hu, rfl⟩
  · exact hi
  · have hi' : State.Inv { s with nowMs := now, inputs := rest } :=
      inv_of_sameDecoder s _ ⟨rfl, rfl, rfl, rfl⟩ hi
    exact exec_keeps_inv i _ t hi' he
  · exact resetBlock_inv _ hi.1
  · obtain ⟨hcfg, -⟩ := outputSoFar_frame i k _ u hu
    exact resetBlock_inv u (hcfg ▸ hi.1)

/-- The logs of a fresh block are empty, and so are its results. -/
theorem fresh_logsAgree (c : Config) : (State.fresh c).LogsAgree := ⟨rfl, rfl⟩

/-- Settles O49: the default build is legal, and the fresh block of a legal build meets the invariant. -/
theorem invariantHoldsAtReset : Obligations.InvariantHoldsAtReset :=
  ⟨fresh_inv Config.standard rfl, fresh_logsAgree _,
    fun c hc => ⟨fresh_inv c hc, fresh_logsAgree c⟩⟩

/-- STATUS is 0 where no error indication is set (10_state.md R29). -/
theorem statusReg_of_clean (s : State) (h : s.Clean) : statusReg s = 0x00000000#32 := by
  obtain ⟨hderr, henc, hcmd⟩ := h
  apply BitVec.eq_of_toNat_eq
  rw [statusReg_toNat, hderr, henc, hcmd]
  rfl

/-- The fresh block holds the values of R34's table: the registers and `dec_error` follow from the cleared flags. -/
theorem fresh_atReset (c : Config) : (State.fresh c).AtReset := by
  have hstatus := statusReg_of_clean (State.fresh c) ⟨rfl, rfl, rfl⟩
  exact ⟨rfl, rfl, rfl, rfl, rfl, rfl, hstatus, rfl, rfl, rfl, statusReg_bit0 _⟩

/-- A reset leaves the table's values in every state: what it keeps is in none of the table's rows. -/
theorem resetBlock_atReset (s : State) : (resetBlock s).AtReset := fresh_atReset s.cfg

/-- Settles O1: SOFT_RESET and the hardware reset both end in `resetBlock`, and an empty buffer reads as no value. -/
theorem resetLeavesTheStatedValues : Obligations.ResetLeavesTheStatedValues :=
  ⟨⟨fresh_atReset _, fun _ => rfl⟩,
    fun s => ⟨_, rfl, resetBlock_atReset (pushResult .none s), fun _ => rfl⟩,
    fun s => ⟨_, rfl, resetBlock_atReset s, fun _ => rfl⟩⟩

end Sys2Proof.Machine
end

section
/-! PROOFS. The range of the Messages that the decoder emits (10_state.md R33). -/

namespace Sys2Proof.Machine

/-- R33's two bounds on a Message of the build `c`. -/
def Message.InRange (c : Config) (m : Message) : Prop :=
  m.timestamp.toNat < 2 ^ 53 ∧ m.payload.length + 8 ≤ c.maxFrameLen

/-- The two words of a timestamp are below `2^53` together when the high one is below `2^21` (00_scope.md R9). -/
theorem tsJoin_lt_tsLimit (hi lo : U32) (h : hi.toNat < 2 ^ 21) :
    (tsJoin hi lo).toNat < 2 ^ 53 := by
  rw [tsJoin_toNat]
  have hlo := lo.isLt
  omega

theorem legalLength_iff (c : Config) (fl : U32) :
    legalLength c fl = true ↔ 8 ≤ fl.toNat ∧ fl.toNat ≤ c.maxFrameLen := by
  simp [legalLength, tsSize]

/-- A byte step emits at most the head frame's Message, whose high timestamp word it has checked and whose length was
legal since the prefix was complete. -/
theorem acceptByte_inRange (b : Byte) (s u : State) (ms : List Message) (hi : s.Inv)
    (h : acceptByte b s = .ok (u, ms)) : ∀ m ∈ ms, m.InRange s.cfg := by
  have hcases := acceptByte_cases b s hi
  obtain ⟨-, hkeys, -, -⟩ := hi
  have hlen := retained_length s hkeys
  rcases hcases with ⟨-, he⟩ | ⟨-, -, -, he⟩ | ⟨-, -, -, he⟩ |
    ⟨-, -, -, hd, -, -, -, -, he⟩ | ⟨-, -, -, hd, -, hlegal, hlevel, hts, he⟩ | ⟨-, -, -, he⟩
  case inr.inr.inr.inr.inl =>
    cases he.symm.trans h
    rw [legalLength_iff] at hlegal
    intro m hm
    cases List.mem_singleton.mp hm
    refine ⟨tsJoin_lt_tsLimit _ _ hts, ?_⟩
    simp only [List.length_drop, List.length_append, List.length_singleton, hlen]
    omega
  all_goals cases he.symm.trans h; simp

/-- Every Message of a chunk is in range: each byte step keeps the invariant and the build. -/
theorem feedBytes_inRange (bs : Bytes) (s u : State) (ms : List Message) (hi : s.Inv)
    (h : feedBytes bs s = .ok (u, ms)) : ∀ m ∈ ms, m.InRange s.cfg := by
  induction bs generalizing s ms with
  | nil => cases h; simp
  | cons b bs ih =>
    obtain ⟨s1, m1, h1, hi1⟩ := acceptByte_keeps b s hi
    obtain ⟨s2, m2, h2, -⟩ := feedBytes_keeps bs s1 hi1
    obtain ⟨hcfg, -⟩ := acceptByte_frame b s s1 m1 h1
    simp only [feedBytes, h1, h2] at h
    cases h
    intro m hm
    rcases List.mem_append.mp hm with hm | hm
    · exact acceptByte_inRange b s s1 m1 hi h1 m hm
    · exact hcfg ▸ ih s1 m2 hi1 h2 m hm

/-- FEED that answers has run its byte steps. -/
theorem exec_feed_next (chunk : Bytes) (s t : State) (h : exec (.feed chunk) s = .next t) :
    ∃ u ms, feedBytes chunk s = .ok (u, ms) ∧ t = pushResult (.feed ms u.derr.isError) u := by
  cases hu : feedBytes chunk s with
  | error f => simp [exec, execFeed, hu] at h
  | ok p =>
    simp only [exec, execFeed, hu] at h
    cases h
    exact ⟨p.1, p.2, rfl, rfl⟩

/-- Settles O32: what FEED appends to `msg_log` is what its byte steps emitted. -/
theorem emittedMessagesAreInRange : Obligations.EmittedMessagesAreInRange := by
  intro s t chunk ms hi h hlog
  obtain ⟨u, ns, hu, rfl⟩ := exec_feed_next chunk s t h
  obtain ⟨-, -, -, -, -, -, -, -, hgrow⟩ := feedBytes_frame chunk s u ns hu
  rw [pushResult_msgLog, hgrow] at hlog
  rw [← List.append_cancel_left hlog]
  exact feedBytes_inRange chunk s u ns hi hu

end Sys2Proof.Machine
end

section
/-! PROOFS. The error indications: what sets each, and that only a reset clears it (10_state.md R25, R26, R28). -/

namespace Sys2Proof.Machine

/-- A step that is no reset waits or runs a command other than SOFT_RESET. -/
theorem step_cases_of_not_reset (s t : State) (hr : s.resetNext = false) (h : step s = .next t) :
    t = s ∨ ∃ now rest i, i ≠ .softReset ∧
      exec i { s with nowMs := now, inputs := rest } = .next t := by
  rcases step_cases s t h with ⟨-, rfl⟩ | ⟨c, now, rest, i, hin, hdec, he⟩ | ⟨rest, hin, -⟩ |
    ⟨c, now, k, rest, i, u, hin, -⟩
  · exact .inl rfl
  · refine .inr ⟨now, rest, i, ?_, he⟩
    rintro rfl
    have hop : c.op = 0x07#8 := by simpa using decode_cases c _ hdec
    simp [State.resetNext, hin, Input.resets, hop] at hr
  · simp [State.resetNext, hin, Input.resets] at hr
  · simp [State.resetNext, hin, Input.resets] at hr

/-- Of the commands other than SOFT_RESET, ENCODE and SEND_ACTION may set `enc_err`, and the others leave it. -/
theorem exec_encErr_cases (i : Instr) (s t : State) (hi : i ≠ .softReset)
    (h : exec i s = .next t) :
    t.encErr = s.encErr ∨
      ((∃ m ts p, i = .encode m ts p) ∨ ∃ u k, i = .sendAction u k) ∧ t.encErr = true := by
  rcases exec_cases i s t h with ⟨chunk, u, ms, -, hu, rfl⟩ | ⟨henc, ⟨r, rfl⟩ | ⟨f, rfl⟩⟩ |
    ⟨-, r, rfl, -, -⟩ | ⟨rfl, -⟩ | ⟨-, rfl⟩
  · obtain ⟨-, hkeep, -⟩ := feedBytes_frame chunk s u ms hu
    exact .inl hkeep
  · exact .inr ⟨henc, rfl⟩
  · exact .inl rfl
  · exact .inl rfl
  · exact absurd rfl hi
  · exact .inl rfl

/-- Of the commands other than SOFT_RESET, the reserved ones set `cmd_err`, and the others leave it. -/
theorem exec_cmdErr_cases (i : Instr) (s t : State) (hi : i ≠ .softReset)
    (h : exec i s = .next t) :
    t.cmdErr = s.cmdErr ∨ i.isReserved = true ∧ t.cmdErr = true := by
  rcases exec_cases i s t h with ⟨chunk, u, ms, -, hu, rfl⟩ | ⟨-, ⟨r, rfl⟩ | ⟨f, rfl⟩⟩ |
    ⟨-, r, rfl, -, -⟩ | ⟨rfl, -⟩ | ⟨hres, rfl⟩
  · obtain ⟨-, -, hkeep, -⟩ := feedBytes_frame chunk s u ms hu
    exact .inl hkeep
  · exact .inl rfl
  · exact .inl rfl
  · exact .inl rfl
  · exact absurd rfl hi
  · exact .inr ⟨hres, rfl⟩

/-- A command that answers with an encoder result whose error bit is 1 has raised EncodeInvalidInput. -/
theorem encErr_of_refused_result (i : Instr) (s t : State) (f : Bytes)
    (reason : Option EncodeReason) (h : exec i s = .next t)
    (hres : t.results = s.results ++ [.frame f true reason]) :
    t.encErr = true := by
  rcases exec_cases i s t h with ⟨chunk, u, ms, -, hu, rfl⟩ | ⟨-, ⟨r, rfl⟩ | ⟨f', rfl⟩⟩ |
    ⟨⟨ts, rfl⟩ | ⟨hi, lo, rfl⟩ | rfl, -⟩ | ⟨-, rfl⟩ | ⟨-, rfl⟩
  · obtain ⟨-, -, -, -, hkeep, -⟩ := feedBytes_frame chunk s u ms hu
    simp [hkeep] at hres
  · rfl
  · simp at hres
  · cases h; simp at hres
  · cases h; simp at hres
  · cases h; simp at hres
  · simp at hres
  · simp [illegalCommand] at hres

/-- ENCODE and SEND_ACTION run the encoder on a message that does not depend on `enc_err`. -/
theorem exec_encoder_eq (i : Instr) (s : State)
    (hi : (∃ m ts p, i = .encode m ts p) ∨ ∃ u k, i = .sendAction u k) :
    ∃ m ts p, ∀ e,
      exec i { s with encErr := e } = .next (runEncoder m ts p { s with encErr := e }) := by
  rcases hi with ⟨m, ts, p, rfl⟩ | ⟨u, k, rfl⟩
  · exact ⟨m, ts, p, fun _ => rfl⟩
  · exact ⟨s.cfg.actionMsgType, s.nowMs, actionPayload u k, fun _ => rfl⟩

/-- The encoder's outputs do not depend on `enc_err` (42_encoder.md R162). -/
theorem runEncoder_outputs_congr (m : Byte) (ts : U64) (p : Bytes) (s : State) (e : Bool) :
    (runEncoder m ts p { s with encErr := e }).results = (runEncoder m ts p s).results ∧
      (runEncoder m ts p { s with encErr := e }).txLog = (runEncoder m ts p s).txLog := by
  cases hf : encodeFrame s.cfg.maxFrameLen m ts p with
  | error r => simp [runEncoder, hf]
  | ok f => simp [runEncoder, hf]

/-- Settles O46: a refusal raises the flag, no command but SOFT_RESET clears it, and the encoder does not read it. -/
theorem encErrIsStickyAndStopsNothing : Obligations.EncErrIsStickyAndStopsNothing := by
  refine ⟨encErr_of_refused_result, fun s t hs hr h => ?_, fun i s t e hi h => ?_⟩
  · rcases step_cases_of_not_reset s t hr h with rfl | ⟨now, rest, i, hi, he⟩
    · exact hs
    · rcases exec_encErr_cases i _ t hi he with hkeep | ⟨-, hset⟩
      · exact hkeep.trans hs
      · exact hset
  · obtain ⟨m, ts, p, hrun⟩ := exec_encoder_eq i s hi
    cases (hrun s.encErr).symm.trans h
    exact ⟨_, hrun e, runEncoder_outputs_congr m ts p s e⟩

/-- Settles O47: a reserved command raises the flag, and no command but SOFT_RESET clears it. -/
theorem cmdErrIsSticky : Obligations.CmdErrIsSticky := by
  refine ⟨fun i s t hi h => ?_, fun s t hs hr h => ?_⟩
  · rcases exec_cases i s t h with ⟨_, _, _, rfl, -, -⟩ | ⟨⟨_, _, _, rfl⟩ | ⟨_, _, rfl⟩, -⟩ |
      ⟨⟨_, rfl⟩ | ⟨_, _, rfl⟩ | rfl, -⟩ | ⟨rfl, -⟩ | ⟨-, rfl⟩
    case inr.inr.inr.inr => rfl
    all_goals cases hi
  · rcases step_cases_of_not_reset s t hr h with rfl | ⟨now, rest, i, hi, he⟩
    · exact hs
    · rcases exec_cmdErr_cases i _ t hi he with hkeep | ⟨-, hset⟩
      · exact hkeep.trans hs
      · exact hset

/-- Settles O48: a command other than SOFT_RESET leaves each indication that is not its unit's. -/
theorem errorIndicationsAreIndependent : Obligations.ErrorIndicationsAreIndependent := by
  intro i s t hi h
  refine ⟨fun hderr => ?_, fun henc => ?_, fun hcmd => ?_⟩
  · rcases exec_decoder_cases i s t h with ⟨chunk, -, -, hfeed, -⟩ | ⟨hreset, -⟩ |
      ⟨-, -, -, hkeep⟩
    · exact ⟨chunk, hfeed⟩
    · exact absurd hreset hi
    · exact absurd hkeep hderr
  · exact ((exec_encErr_cases i s t hi h).resolve_left henc).1
  · exact ((exec_cmdErr_cases i s t hi h).resolve_left hcmd).1

end Sys2Proof.Machine
end

section
/-! PROOFS. The frames of any Messages, cut into chunks anywhere, give those Messages in order (20_memory.md R54;
41_decoder.md R125, R126). -/

namespace Sys2Proof.Machine

/-- UnpackHeader reads back what PackHeader wrote, whatever follows it (40_codec.md R105). -/
theorem unpackHeader_packHeader (t : Byte) (fl hi lo : U32) (rest : Bytes) :
    unpackHeader (packHeader t fl hi lo ++ rest) = some ⟨t, fl, hi, lo⟩ := by
  refine (unpackHeader_eq_some _ _).mpr ⟨rfl, ?_, ?_, ?_⟩
  · exact congrArg some (wordOf_u32be fl)
  · exact congrArg some (wordOf_u32be hi)
  · exact congrArg some (wordOf_u32be lo)

/-- Joining the two words of a timestamp gives it back (40_codec.md R102). -/
theorem tsJoin_tsHi_tsLo (ts : U64) : tsJoin (tsHi ts) (tsLo ts) = ts := by
  apply BitVec.eq_of_toNat_eq
  rw [tsJoin_toNat, tsHi_toNat, tsLo_toNat]
  omega

/-- The length field that a byte sequence starts with stays when bytes follow it (40_codec.md R106). -/
theorem peekLength_append (a r : Bytes) (fl : U32) (h : peekLength a = some fl) :
    peekLength (a ++ r) = some fl := by
  have h5 : 5 ≤ a.length := (peekLength_isSome_iff a).mp (by simp [h])
  rw [peekLength, be32_append a r 1 h5]
  exact h

/-- `f` is a frame of `m` that the decoder of the build `c` accepts: the header it checks, and the Message it emits. -/
def Spells (c : Config) (f : Bytes) (m : Message) : Prop :=
  ∃ hd, unpackHeader f = some hd ∧ legalLength c hd.fl = true ∧ f.length = 5 + hd.fl.toNat ∧
    f.length ≤ c.bufCap ∧ hd.hi.toNat < 2 ^ 21 ∧
    m = ⟨hd.mtype, tsJoin hd.hi hd.lo, f.drop 13⟩

/-- A frame the encoder accepts spells its Message, where it fits in the buffer. -/
theorem spells_of_encodeFrame (c : Config) (m : Message) (f : Bytes) (hc : c.wf = true)
    (hcap : 13 + m.payload.length ≤ c.bufCap)
    (h : encodeFrame c.maxFrameLen m.messageType m.timestamp m.payload = .ok f) :
    Spells c f m := by
  obtain ⟨hmax, hts, rfl⟩ := (encodeFrame_eq_ok _ _ _ _ _).mp h
  have hwidth : c.maxFrameLen ≤ 2 ^ 32 - 1 := by
    simp only [Config.wf, Bool.and_eq_true, decide_eq_true_eq] at hc
    exact hc.2
  have hfl : (BitVec.ofNat 32 (8 + m.payload.length)).toNat = 8 + m.payload.length := by
    rw [BitVec.toNat_ofNat, Nat.mod_eq_of_lt (by omega)]
  refine ⟨_, unpackHeader_packHeader _ _ _ _ _, ?_, ?_, ?_, ?_, ?_⟩
  · rw [legalLength_iff, hfl]
    omega
  · rw [List.length_append, packHeader_length, hfl]
    omega
  · rwa [List.length_append, packHeader_length]
  · rw [tsHi_toNat]
    omega
  · rw [tsJoin_tsHi_tsLo, List.drop_left' (packHeader_length _ _ _ _)]

/-- While the retained bytes are the start of a frame, the next byte of it is retained, or it is the last one and the
frame's Message leaves (41_decoder.md R121). -/
theorem acceptByte_in_frame (s : State) (b : Byte) (rest : Bytes) (m : Message) (hi : s.Inv)
    (hd : s.derr = .none) (hm : Spells s.cfg (retained s ++ b :: rest) m) :
    (rest = [] ∧ acceptByte b s = .ok (bufDrop (emit m (appended b s)), [m])) ∨
      (rest ≠ [] ∧ acceptByte b s = .ok (appended b s, [])) := by
  obtain ⟨hdr, hu, hlegal, hlen, hcap, hts, rfl⟩ := hm
  have hlevel := retained_length s hi.2.1
  have hsplit : retained s ++ b :: rest = (retained s ++ [b]) ++ rest := by simp
  rw [List.length_append, List.length_cons, hlevel] at hlen hcap
  have hpeek : ∀ fl, peekLength (retained s ++ [b]) = some fl → fl = hdr.fl := by
    intro fl hfl
    have hp := peekLength_append _ rest fl hfl
    rw [← hsplit, peekLength_of_unpackHeader _ _ hu] at hp
    exact (Option.some.inj hp).symm
  have hwhole : ∀ hd', unpackHeader (retained s ++ [b]) = some hd' →
      s.level + 1 = 5 + hd'.fl.toNat → rest = [] ∧ hd' = hdr := by
    intro hd' hu' hl'
    have hfl := hpeek _ (peekLength_of_unpackHeader _ _ hu')
    have hrest : rest = [] := List.eq_nil_of_length_eq_zero (by rw [hfl] at hl'; omega)
    subst hrest
    exact ⟨rfl, Option.some.inj (hu'.symm.trans hu)⟩
  rcases acceptByte_cases b s hi with ⟨herr, -⟩ | ⟨-, hfull, -⟩ | ⟨-, -, ⟨fl, hp, hbad⟩, -⟩ |
    ⟨-, -, -, hd', hu', -, hl', hr, -⟩ | ⟨-, -, -, hd', hu', -, hl', -, he⟩ | ⟨-, -, hkeep, he⟩
  · exact absurd hd herr
  · omega
  · rw [hpeek fl hp, hlegal] at hbad
    cases hbad
  · obtain ⟨-, rfl⟩ := hwhole hd' hu' hl'
    omega
  · obtain ⟨rfl, rfl⟩ := hwhole hd' hu' hl'
    exact .inl ⟨rfl, he⟩
  · refine .inr ⟨?_, he⟩
    rintro rfl
    rw [legalLength_iff] at hlegal
    rw [List.length_nil] at hlen
    rcases hkeep with hshort | ⟨fl, hp, -, hlt⟩
    · omega
    · rw [hpeek fl hp] at hlt
      omega

/-- The rest of a frame emits its Message and leaves the buffer empty and the decoder running. -/
theorem feedBytes_rest_of_frame (rest : Bytes) (s : State) (m : Message) (hi : s.Inv)
    (hd : s.derr = .none) (hne : rest ≠ []) (hm : Spells s.cfg (retained s ++ rest) m) :
    ∃ t, feedBytes rest s = .ok (t, [m]) ∧ t.level = 0 ∧ t.derr = .none := by
  induction rest generalizing s with
  | nil => exact absurd rfl hne
  | cons b rest ih =>
    rcases acceptByte_in_frame s b rest m hi hd hm with ⟨rfl, he⟩ | ⟨hne', he⟩
    · exact ⟨bufDrop (emit m (appended b s)), by simp [feedBytes, he], rfl, hd⟩
    · obtain ⟨u, ms, hu, hiu⟩ := acceptByte_keeps b s hi
      cases he.symm.trans hu
      obtain ⟨t, ht, hlevel, hderr⟩ := ih (appended b s) hiu hd hne' (by simpa using hm)
      exact ⟨t, by simp [feedBytes, he, ht], hlevel, hderr⟩

/-- A frame whose bytes are fed to a running decoder with an empty buffer emits its Message and leaves it so
(41_decoder.md R125). -/
theorem feedBytes_of_frame (f : Bytes) (s : State) (m : Message) (hi : s.Inv)
    (hd : s.derr = .none) (hl : s.level = 0) (hm : Spells s.cfg f m) :
    ∃ t, feedBytes f s = .ok (t, [m]) ∧ t.level = 0 ∧ t.derr = .none := by
  have hempty : retained s = [] :=
    List.eq_nil_of_length_eq_zero ((retained_length s hi.2.1).trans hl)
  have hne : f ≠ [] := by
    rintro rfl
    obtain ⟨hdr, -, -, hlen, -⟩ := hm
    rw [List.length_nil] at hlen
    omega
  exact feedBytes_rest_of_frame f s m hi hd hne (by rwa [hempty])

/-- Frames one after another emit their Messages in order (41_decoder.md R126). -/
theorem feedBytes_of_frames (frames : List Bytes) (ms : List Message) (s : State) (hi : s.Inv)
    (hd : s.derr = .none) (hl : s.level = 0) (hm : List.Forall₂ (Spells s.cfg) frames ms) :
    ∃ t, feedBytes frames.flatten s = .ok (t, ms) ∧ t.level = 0 ∧ t.derr = .none := by
  induction frames generalizing s ms with
  | nil =>
    cases hm
    exact ⟨s, rfl, hl, hd⟩
  | cons f frames ih =>
    obtain ⟨m, ms, hf, hrest, rfl⟩ := List.forall₂_cons_left_iff.mp hm
    obtain ⟨u, hu, hlu, hdu⟩ := feedBytes_of_frame f s m hi hd hl hf
    obtain ⟨u', ms', hu', hiu⟩ := feedBytes_keeps f s hi
    cases hu.symm.trans hu'
    obtain ⟨hcfg, -⟩ := feedBytes_frame f s u [m] hu
    obtain ⟨t, ht, hlt, hdt⟩ := ih ms u hiu hdu hlu (hcfg ▸ hrest)
    exact ⟨t, by simp [feedBytes_append, hu, ht], hlt, hdt⟩

/-- FEEDs of the chunks of a byte sequence answer when its byte steps do, append the same Messages and leave the decoder
in the same state (41_decoder.md R130). -/
theorem execSeq_feed (chunks : List Bytes) (s u : State) (ms : List Message)
    (h : feedBytes chunks.flatten s = .ok (u, ms)) :
    ∃ t, execSeq (chunks.map Instr.feed) s = .next t ∧ u.SameDecoder t ∧
      t.msgLog = s.msgLog ++ ms := by
  induction chunks generalizing s u ms with
  | nil =>
    cases h
    exact ⟨s, rfl, ⟨rfl, rfl, rfl, rfl⟩, (List.append_nil _).symm⟩
  | cons c chunks ih =>
    rw [List.flatten_cons, feedBytes_append] at h
    split at h
    · cases h
    next v m1 hv =>
    split at h
    · cases h
    next w m2 hw =>
    cases h
    obtain ⟨w', hw', hsame⟩ :=
      feedBytes_congr _ v (pushResult (.feed m1 v.derr.isError) v) _ _ ⟨rfl, rfl, rfl, rfl⟩ hw
    obtain ⟨t, ht, hsame', hlog⟩ := ih _ _ _ hw'
    obtain ⟨-, -, -, -, -, -, -, -, hgrow⟩ := feedBytes_frame c s v m1 hv
    refine ⟨t, ?_, ?_, ?_⟩
    · simpa [execSeq, exec, execFeed, hv] using ht
    · obtain ⟨hc, hb, hl, hd⟩ := hsame
      obtain ⟨hc', hb', hl', hd'⟩ := hsame'
      exact ⟨hc'.trans hc, hb'.trans hb, hl'.trans hl, hd'.trans hd⟩
    · rw [hlog, pushResult_msgLog, hgrow, List.append_assoc]

/-- The frames of a list of Messages, taken one by one, spell them. -/
theorem forall₂_spells (c : Config) (ms : List Message) (frames : List Bytes) (hc : c.wf = true)
    (hcap : ∀ m ∈ ms, 13 + m.payload.length ≤ c.bufCap)
    (h : ms.map (fun m => encodeFrame c.maxFrameLen m.messageType m.timestamp m.payload) =
      frames.map Except.ok) :
    List.Forall₂ (Spells c) frames ms := by
  induction ms generalizing frames with
  | nil =>
    cases frames with
    | nil => exact .nil
    | cons f frames => cases h
  | cons m ms ih =>
    cases frames with
    | nil => cases h
    | cons f frames =>
      obtain ⟨hf, hrest⟩ := List.cons.inj h
      obtain ⟨hm, hms⟩ := List.forall_mem_cons.mp hcap
      exact .cons (spells_of_encodeFrame c m f hc hm hf) (ih frames hms hrest)

/-- Settles O41: the chunks' bytes are the frames' bytes, and each frame in turn emits its Message and leaves the buffer
empty. -/
theorem messagesLeaveInFrameOrder : Obligations.MessagesLeaveInFrameOrder := by
  intro s ms frames chunks hi hd hl hcap henc hcut
  have hspells := forall₂_spells s.cfg ms frames hi.1 hcap henc
  obtain ⟨u, hu, hlu, hdu⟩ := feedBytes_of_frames frames ms s hi hd hl hspells
  obtain ⟨t, ht, ⟨-, -, hlt, hdt⟩, hlog⟩ := execSeq_feed chunks s u ms (hcut ▸ hu)
  exact ⟨t, ht, hlog, hlt.trans hlu, hdt.trans hdu⟩

end Sys2Proof.Machine
end

section
/-! PROOFS. From the invariant no step faults (20_memory.md R41, R42). -/

namespace Sys2Proof.Machine

/-- Only FEED reads the buffer or appends to it, and its byte steps answer from the invariant. -/
theorem exec_ne_fault (i : Instr) (s : State) (f : Fault) (hi : s.Inv) : exec i s ≠ .fault f := by
  cases i with
  | feed chunk =>
    obtain ⟨t, ms, ht, -⟩ := feedBytes_keeps chunk s hi
    simp [exec, execFeed, ht]
  | encode _ _ _ | sendAction _ _ | tsSplit _ | tsJoin _ _ | readStatus | softReset | reserved00
  | reserved08 _ | reserved10 _ | reserved20 _ | reserved40 _ | reserved80 _ => nofun

/-- What a command cut short has output is defined from the invariant: the part of a FEED's chunk that was taken is itself
a chunk. -/
theorem outputSoFar_ok (i : Instr) (k : Nat) (s : State) (hi : s.Inv) :
    ∃ t, outputSoFar i k s = .ok t := by
  cases i with
  | feed chunk =>
    obtain ⟨t, ms, ht, -⟩ := feedBytes_keeps (chunk.take k) s hi
    exact ⟨t, by simp only [outputSoFar, ht]⟩
  | encode m ts p =>
    simp only [outputSoFar]
    split <;> exact ⟨_, rfl⟩
  | sendAction u keys =>
    simp only [outputSoFar]
    split <;> exact ⟨_, rfl⟩
  | tsSplit _ | tsJoin _ _ | readStatus | softReset | reserved00 | reserved08 _ | reserved10 _
  | reserved20 _ | reserved40 _ | reserved80 _ => exact ⟨s, rfl⟩

/-- No input faults from the invariant. -/
theorem runInput_ne_fault (x : Input) (s : State) (f : Fault) (hi : s.Inv) :
    runInput x s ≠ .fault f := by
  have hclock : ∀ now, State.Inv { s with nowMs := now } :=
    fun now => inv_of_sameDecoder s _ ⟨rfl, rfl, rfl, rfl⟩ hi
  cases x with
  | command c now =>
    simp only [runInput]
    split
    · exact exec_ne_fault _ _ f (hclock now)
    · nofun
  | rst => nofun
  | commandCutByRst c now k =>
    simp only [runInput]
    split
    next i _ =>
      obtain ⟨t, ht⟩ := outputSoFar_ok i k _ (hclock now)
      simp [cutByReset, ht]
    · nofun

/-- Settles O51: a step waits or runs its oldest input. -/
theorem stepNeverFaults : Obligations.StepNeverFaults := by
  intro s f hi
  simp only [step, takeInput]
  split
  · nofun
  · exact runInput_ne_fault _ _ f (inv_of_sameDecoder s _ ⟨rfl, rfl, rfl, rfl⟩ hi)

end Sys2Proof.Machine
end

section
/-! PROOFS. The logs are what the results say, in command order (20_memory.md R54, R55). -/

namespace Sys2Proof.Machine

/-- The logs agree with the results again when a command appends to them what its result says. -/
theorem pushResult_logsAgree (r : Result) (s u : State) (hs : s.LogsAgree)
    (hres : u.results = s.results) (hmsg : u.msgLog = s.msgLog ++ r.emitted)
    (htx : u.txLog = s.txLog ++ r.sent) : (pushResult r u).LogsAgree := by
  obtain ⟨hm, ht⟩ := hs
  simp [State.LogsAgree, hres, hmsg, htx, hm, ht]

/-- Every command keeps the logs in agreement with the results. -/
theorem exec_keeps_logsAgree (i : Instr) (s t : State) (hs : s.LogsAgree)
    (h : exec i s = .next t) : t.LogsAgree := by
  rcases exec_cases i s t h with ⟨chunk, u, ms, -, hu, rfl⟩ | ⟨-, ⟨r, rfl⟩ | ⟨f, rfl⟩⟩ |
    ⟨-, r, rfl, hsent, hemitted⟩ | ⟨-, rfl⟩ | ⟨-, rfl⟩
  · obtain ⟨-, -, -, htx, hres, -, -, -, hmsg⟩ := feedBytes_frame chunk s u ms hu
    exact pushResult_logsAgree _ s u hs hres hmsg (by simp [htx, Result.sent])
  · exact pushResult_logsAgree _ s _ hs rfl (by simp [Result.emitted]) (by simp [Result.sent])
  · exact pushResult_logsAgree _ s _ hs rfl (by simp [Result.emitted]) rfl
  · exact pushResult_logsAgree _ s s hs rfl (by simp [hemitted]) (by simp [hsent])
  · exact ⟨rfl, rfl⟩
  · exact pushResult_logsAgree _ s _ hs rfl (by simp [Result.emitted]) (by simp [Result.sent])

/-- Settles O55: a command keeps the agreement, and a reset empties the logs and the results. -/
theorem stepKeepsTheLogsInCommandOrder : Obligations.StepKeepsTheLogsInCommandOrder := by
  intro s t hs h
  rcases step_cases s t h with ⟨-, rfl⟩ | ⟨c, now, rest, i, -, -, he⟩ | ⟨rest, -, rfl⟩ |
    ⟨c, now, k, rest, i, u, -, -, -, rfl⟩
  · exact hs
  · exact exec_keeps_logsAgree i { s with nowMs := now, inputs := rest } t hs he
  · exact ⟨rfl, rfl⟩
  · exact ⟨rfl, rfl⟩

end Sys2Proof.Machine
end

section
/-! PROOFS. The mixed-width view of a frame's header (20_memory.md R46; 30_encoding.md R61). -/

namespace Sys2Proof.Machine

/-- UnpackHeader of 13 bytes written out: the fields at their offsets (30_encoding.md R61). -/
theorem unpackHeader_cons (t l0 l1 l2 l3 b0 b1 b2 b3 b4 b5 b6 b7 : Byte) (rest : Bytes) :
    unpackHeader (t :: l0 :: l1 :: l2 :: l3 ::
        b0 :: b1 :: b2 :: b3 :: b4 :: b5 :: b6 :: b7 :: rest) =
      some ⟨t, wordOf l0 l1 l2 l3, wordOf b0 b1 b2 b3, wordOf b4 b5 b6 b7⟩ := rfl

/-- Settles O21: the high word's four bytes weigh `2^32` times their own weights. -/
theorem timestampIsEightBigEndianBytes : Obligations.TimestampIsEightBigEndianBytes := by
  intro t l0 l1 l2 l3 b0 b1 b2 b3 b4 b5 b6 b7 rest
  refine ⟨_, unpackHeader_cons t l0 l1 l2 l3 b0 b1 b2 b3 b4 b5 b6 b7 rest, rfl,
    wordOf_toNat l0 l1 l2 l3, ?_⟩
  rw [tsJoin_toNat, wordOf_toNat, wordOf_toNat]
  omega

end Sys2Proof.Machine
end

section
/-! PROOFS. Decoding and encoding are inverse to each other on commands, and both follow the opcode table
(30_encoding.md R72, R73; spec/opcode_table.json). -/

namespace Sys2Proof.Machine

/-- Opcode 0x01 with as many bytes as its length operand says is FEED of those bytes. -/
theorem decode_feed (c : Command) (hop : c.op = 0x01#8) (hlen : c.data.length = c.len.toNat) :
    decode c = .ok (.feed c.data) := by
  simp [decode, byteOperand, hop, hlen]

/-- Opcode 0x02 with as many bytes as its length operand says is ENCODE of its operands. -/
theorem decode_encodeCommand (c : Command) (hop : c.op = 0x02#8)
    (hlen : c.data.length = c.len.toNat) : decode c = .ok (.encode c.mtype c.ts c.data) := by
  simp [decode, byteOperand, hop, hlen]

/-- The length that `encode` writes for a byte operand is the operand's length: it fits a `u32`. -/
theorem length_eq_toNat_of_wf (bs : Bytes) (h : decide (bs.length < 2 ^ 32) = true) :
    bs.length = (BitVec.ofNat 32 bs.length).toNat := by
  rw [BitVec.toNat_ofNat, Nat.mod_eq_of_lt (of_decide_eq_true h)]

/-- Settles O11: a byte operand's length survives its `u32` port, the other operands are copied, and a reserved opcode
is its row's fixed bits before the bits that the constructor holds. -/
theorem decodeOfEncodeIsTheCommand : Obligations.DecodeOfEncodeIsTheCommand := by
  intro i hwf
  cases i with
  | feed chunk => exact decode_feed (encode (.feed chunk)) rfl (length_eq_toNat_of_wf chunk hwf)
  | encode mtype ts payload =>
    exact decode_encodeCommand (encode (.encode mtype ts payload)) rfl
      (length_eq_toNat_of_wf payload hwf)
  | sendAction userId keys => rfl
  | tsSplit ts => rfl
  | tsJoin hi lo => rfl
  | readStatus => rfl
  | softReset => rfl
  | reserved00 => rfl
  | reserved08 o => clear hwf; revert o; decide
  | reserved10 o => clear hwf; revert o; decide
  | reserved20 o => clear hwf; revert o; decide
  | reserved40 o => clear hwf; revert o; decide
  | reserved80 o => clear hwf; revert o; decide

/-- An opcode of a reserved row is the row's fixed bits before the opcode's own low bits. -/
theorem rowBits_append_lowBits (op : Byte) :
    (op &&& 0xF8#8 = 0x08#8 → 0b00001#5 ++ op.extractLsb' 0 3 = op) ∧
    (op &&& 0xF0#8 = 0x10#8 → 0b0001#4 ++ op.extractLsb' 0 4 = op) ∧
    (op &&& 0xE0#8 = 0x20#8 → 0b001#3 ++ op.extractLsb' 0 5 = op) ∧
    (op &&& 0xC0#8 = 0x40#8 → 0b01#2 ++ op.extractLsb' 0 6 = op) ∧
    (op &&& 0x80#8 = 0x80#8 → 0b1#1 ++ op.extractLsb' 0 7 = op) := by
  revert op
  decide

/-- A decoded command encodes to the opcode it was decoded from. -/
theorem encode_op_of_decode (c : Command) (i : Instr) (h : decode c = .ok i) :
    (encode i).op = c.op := by
  obtain ⟨h08, h10, h20, h40, h80⟩ := rowBits_append_lowBits c.op
  rcases decode_cases c i h with ⟨hop, -, rfl⟩ | ⟨hop, -, rfl⟩ | ⟨hop, rfl⟩ | ⟨hop, rfl⟩ |
    ⟨hop, rfl⟩ | ⟨hop, rfl⟩ | ⟨hop, rfl⟩ | ⟨hop, rfl⟩ | ⟨hop, rfl⟩ | ⟨hop, rfl⟩ | ⟨hop, rfl⟩ |
    ⟨hop, rfl⟩ | ⟨hop, rfl⟩
  · exact hop.symm
  · exact hop.symm
  · exact hop.symm
  · exact hop.symm
  · exact hop.symm
  · exact hop.symm
  · exact hop.symm
  · exact hop.symm
  · exact h08 hop
  · exact h10 hop
  · exact h20 hop
  · exact h40 hop
  · exact h80 hop

/-- Settles O12: the opcode says which command was decoded, and that command's operands are the ports' values. -/
theorem encodeOfDecodeKeepsOpcodeAndOperands :
    Obligations.EncodeOfDecodeKeepsOpcodeAndOperands := by
  intro c i h
  have hcases := decode_cases c i h
  refine ⟨encode_op_of_decode c i h, fun hop => ?_, fun hop => ?_, fun hop => ?_, fun hop => ?_,
    fun hop => ?_⟩
  · obtain ⟨hlen, rfl⟩ : c.data.length = c.len.toNat ∧ i = .feed c.data := by
      simpa [hop] using hcases
    exact ⟨by simp [encode, hlen], rfl⟩
  · obtain ⟨hlen, rfl⟩ : c.data.length = c.len.toNat ∧ i = .encode c.mtype c.ts c.data := by
      simpa [hop] using hcases
    exact ⟨rfl, rfl, by simp [encode, hlen], rfl⟩
  · obtain rfl : i = .sendAction c.user c.keys := by simpa [hop] using hcases
    exact ⟨rfl, rfl⟩
  · obtain rfl : i = .tsSplit c.ts := by simpa [hop] using hcases
    rfl
  · obtain rfl : i = .tsJoin c.hi c.lo := by simpa [hop] using hcases
    exact ⟨rfl, rfl⟩

/-- The opcode of every command is of one row of the table, the command's own. -/
theorem rowsOf_encode_op (i : Instr) :
    (rowsOf (encode i).op).map OpcodeRow.mnemonic = [i.mnemonic] := by
  cases i with
  | feed chunk => exact Laws.OpcodeRow.feed chunk
  | encode mtype ts payload => exact Laws.OpcodeRow.encode mtype ts payload
  | sendAction userId keys => exact Laws.OpcodeRow.sendAction userId keys
  | tsSplit ts => exact Laws.OpcodeRow.tsSplit ts
  | tsJoin hi lo => exact Laws.OpcodeRow.tsJoin hi lo
  | readStatus => exact Laws.OpcodeRow.readStatus
  | softReset => exact Laws.OpcodeRow.softReset
  | reserved00 => exact Laws.OpcodeRow.reserved00
  | reserved08 o => exact Laws.OpcodeRow.reserved08 o
  | reserved10 o => exact Laws.OpcodeRow.reserved10 o
  | reserved20 o => exact Laws.OpcodeRow.reserved20 o
  | reserved40 o => exact Laws.OpcodeRow.reserved40 o
  | reserved80 o => exact Laws.OpcodeRow.reserved80 o

/-- The opcode a command was decoded from is of one row of the table, the command's own. -/
theorem rowsOf_op_of_decode (c : Command) (i : Instr) (h : decode c = .ok i) :
    (rowsOf c.op).map OpcodeRow.mnemonic = [i.mnemonic] :=
  encode_op_of_decode c i h ▸ rowsOf_encode_op i

/-- Settles O13: every opcode decodes with zeros on its operand ports, and whatever decodes from it has the mnemonic of
the only row it is of. -/
theorem everyOpcodeIsOfOneRow : Obligations.EveryOpcodeIsOfOneRow := by
  intro op
  obtain ⟨i₀, h₀⟩ := decode_total (Command.blank op) (.inr rfl)
  obtain ⟨r, hr, -⟩ : ∃ r, rowsOf op = [r] ∧ r.mnemonic = i₀.mnemonic :=
    List.map_eq_singleton_iff.mp (rowsOf_op_of_decode _ _ h₀)
  refine ⟨r, hr, ?_⟩
  rintro c i rfl h
  have hrow := rowsOf_op_of_decode c i h
  rw [hr] at hrow
  exact (List.singleton_inj.mp hrow).symm

/-- Settles O14: a decoding of FEED or ENCODE also compares the stated length with the bytes' number. -/
theorem sampleOpcodesDecode : Obligations.SampleOpcodesDecode :=
  ⟨decode_feed _ rfl rfl, decode_encodeCommand _ rfl rfl, rfl, rfl, rfl, rfl⟩

/-- A step with a command that decodes runs it, with the input taken and the clock input at its value. -/
theorem step_of_decode (s : State) (c : Command) (now : U64) (rest : List Input) (i : Instr)
    (hin : s.inputs = .command c now :: rest) (h : decode c = .ok i) :
    step s = exec i { s with nowMs := now, inputs := rest } := by
  simp [step, takeInput, runInput, hin, h]

/-- Only the reserved commands have the opcode 0x00 or one of 0x08..0xFF (30_encoding.md R73). -/
theorem isReserved_of_encode_op (i : Instr)
    (h : (encode i).op = 0x00#8 ∨ 8 ≤ (encode i).op.toNat) : i.isReserved = true := by
  cases i with
  | feed | encode | sendAction | tsSplit | tsJoin | readStatus | softReset =>
    simp [encode, Command.blank] at h
  | reserved00 | reserved08 | reserved10 | reserved20 | reserved40 | reserved80 => rfl

/-- Every reserved command raises IllegalCommand in every state (43_control.md R192). -/
theorem exec_of_isReserved (i : Instr) (s : State) (h : i.isReserved = true) :
    exec i s = .next (illegalCommand s) := by
  cases i with
  | feed | encode | sendAction | tsSplit | tsJoin | readStatus | softReset => cases h
  | reserved00 | reserved08 | reserved10 | reserved20 | reserved40 | reserved80 => rfl

/-- Settles O45: a reserved opcode has no byte operand, so it decodes, and it decodes to a reserved command. -/
theorem reservedOpcodesAreIllegal : Obligations.ReservedOpcodesAreIllegal := by
  intro s c now rest hop hin
  have hne : c.op ≠ 0x01#8 ∧ c.op ≠ 0x02#8 :=
    ⟨fun h => by simp [h] at hop, fun h => by simp [h] at hop⟩
  obtain ⟨i, hdec⟩ := decode_total c (.inl hne)
  have hres : i.isReserved = true :=
    isReserved_of_encode_op i (encode_op_of_decode c i hdec ▸ hop)
  rw [step_of_decode s c now rest i hin hdec, exec_of_isReserved i _ hres]
  rfl

end Sys2Proof.Machine
end

section
/-! PROOFS. The codec: TS_SPLIT and TS_JOIN answer from their operands alone and are inverse to each other, and the
header's fields are read back from its bytes (40_codec.md R100 to R106). -/

namespace Sys2Proof.Machine

/-- TS_SPLIT answers in every state with the timestamp's two words, and does nothing else (40_codec.md R100). -/
theorem exec_tsSplit (ts : U64) (s : State) :
    exec (.tsSplit ts) s = .next (pushResult (.split (tsHi ts) (tsLo ts)) s) := rfl

/-- TS_JOIN answers in every state with the joined timestamp, and does nothing else (40_codec.md R101). -/
theorem exec_tsJoin (hi lo : U32) (s : State) :
    exec (.tsJoin hi lo) s = .next (pushResult (.join (tsJoin hi lo)) s) := rfl

/-- The high word of a joined timestamp: the low word is less than `2^32` (40_codec.md R102). -/
theorem tsHi_tsJoin (hi lo : U32) : tsHi (tsJoin hi lo) = hi := by
  apply BitVec.eq_of_toNat_eq
  have := lo.isLt
  rw [tsHi_toNat, tsJoin_toNat]
  omega

/-- The low word of a joined timestamp: the high word is a multiple of `2^32` there (40_codec.md R102). -/
theorem tsLo_tsJoin (hi lo : U32) : tsLo (tsJoin hi lo) = lo := by
  apply BitVec.eq_of_toNat_eq
  have := lo.isLt
  rw [tsLo_toNat, tsJoin_toNat]
  omega

/-- Settles O18: each command answers in every state, and the two functions on words are inverse both ways. -/
theorem splitAndJoinAreInverse : Obligations.SplitAndJoinAreInverse := by
  refine ⟨fun ts s => ⟨_, _, _, _, exec_tsSplit ts s, rfl, exec_tsJoin _ _ _, ?_⟩,
    fun hi lo s => ⟨_, _, _, exec_tsJoin hi lo s, rfl, exec_tsSplit _ _, ?_⟩⟩
  · rw [pushResult_results, tsJoin_tsHi_tsLo]
  · rw [pushResult_results, tsHi_tsJoin, tsLo_tsJoin]

/-- Settles O20: PeekLength reads the length field of the header that UnpackHeader reads. -/
theorem unpackOfPackIsTheHeader : Obligations.UnpackOfPackIsTheHeader := by
  intro t f h l rest
  have hunpack := unpackHeader_packHeader t f h l rest
  exact ⟨packHeader_length t f h l, hunpack, peekLength_of_unpackHeader _ _ hunpack⟩

/-- Settles O15: the two words are the timestamp's quotient and remainder by `2^32`. -/
theorem tsSplitFollowsItsRule : Obligations.TsSplitFollowsItsRule := fun ts s =>
  ⟨rfl, tsHi ts, tsLo ts, exec_tsSplit ts s, tsHi_toNat ts, tsLo_toNat ts⟩

/-- Settles O16: appending the low word to the high one is `hi * 2^32 + lo`. -/
theorem tsJoinFollowsItsRule : Obligations.TsJoinFollowsItsRule := fun hi lo s =>
  ⟨rfl, tsJoin hi lo, exec_tsJoin hi lo s, tsJoin_toNat hi lo⟩

/-- Settles O17: the result of either command is a function of its operands. -/
theorem codecHoldsNoState : Obligations.CodecHoldsNoState := by
  rintro i (⟨ts, rfl⟩ | ⟨hi, lo, rfl⟩)
  · exact ⟨.split (tsHi ts) (tsLo ts), exec_tsSplit ts⟩
  · exact ⟨.join (tsJoin hi lo), exec_tsJoin hi lo⟩

end Sys2Proof.Machine
end

section
/-! PROOFS. FEED as a fold of byte steps: what it answers, what it leaves, and that a chunk can be cut anywhere
(41_decoder.md R122, R128, R129, R130, R132, R134). -/

namespace Sys2Proof.Machine

/-- FEED answers when its byte steps do (41_decoder.md R122). -/
theorem exec_feed_of_feedBytes (chunk : Bytes) (s u : State) (ms : List Message)
    (h : feedBytes chunk s = .ok (u, ms)) :
    exec (.feed chunk) s = .next (pushResult (.feed ms (decide (u.derr ≠ .none))) u) := by
  simp only [exec, execFeed, h, isError_eq]

/-- The byte steps of a chunk change `buf`, `level` and `derr` and append to `msg_log`, and nothing else. -/
theorem feedBytes_state_eq (chunk : Bytes) (s u : State) (ms : List Message)
    (h : feedBytes chunk s = .ok (u, ms)) :
    u = { s with
      buf := u.buf, level := u.level, derr := u.derr, msgLog := s.msgLog ++ ms } := by
  obtain ⟨hcfg, henc, hcmd, htx, hres, hend, hnow, hin, hlog⟩ := feedBytes_frame chunk s u ms h
  rw [← hcfg, ← henc, ← hcmd, ← htx, ← hres, ← hend, ← hnow, ← hin, ← hlog]

/-- The byte steps of a chunk neither read nor write the results: a result pushed before them could be pushed after. -/
theorem feedBytes_pushResult (chunk : Bytes) (r : Result) (s u : State) (ms : List Message)
    (h : feedBytes chunk s = .ok (u, ms)) :
    feedBytes chunk (pushResult r s) = .ok (pushResult r u, ms) := by
  obtain ⟨u', hu', -, hbuf, hlevel, hderr⟩ :=
    feedBytes_congr chunk s (pushResult r s) u ms ⟨rfl, rfl, rfl, rfl⟩ h
  rw [hu', feedBytes_state_eq _ _ _ _ hu', hbuf, hlevel, hderr, feedBytes_state_eq _ _ _ _ h]
  rfl

/-- FEED of two chunks, one after the other, against FEED of both at once: the same state but for one result in place of
two (41_decoder.md R130). -/
theorem exec_feed_append (a b : Bytes) (s u w : State) (ms ns : List Message)
    (ha : feedBytes a s = .ok (u, ms)) (hb : feedBytes b u = .ok (w, ns)) :
    ∃ u' v, exec (.feed a) s = .next u' ∧
      u'.results = s.results ++ [.feed ms (decide (u'.derr ≠ .none))] ∧
      exec (.feed b) u' = .next v ∧
      v.results = u'.results ++ [.feed ns (decide (v.derr ≠ .none))] ∧
      exec (.feed (a ++ b)) s =
        .next { v with results := s.results ++ [.feed (ms ++ ns) (decide (v.derr ≠ .none))] } := by
  have hab : feedBytes (a ++ b) s = .ok (w, ms ++ ns) := by simp only [feedBytes_append, ha, hb]
  obtain ⟨-, -, -, -, hu, -⟩ := feedBytes_frame a s u ms ha
  obtain ⟨-, -, -, -, hw, -⟩ := feedBytes_frame (a ++ b) s w _ hab
  refine ⟨_, _, exec_feed_of_feedBytes a s u ms ha, by simp [hu],
    exec_feed_of_feedBytes b _ _ ns (feedBytes_pushResult b _ u w ns hb), by simp [hu, hw], ?_⟩
  rw [exec_feed_of_feedBytes _ _ _ _ hab, ← hw]
  rfl

/-- Settles O29: the byte steps of `a ++ b` are those of `a`, then those of `b`. -/
theorem chunkBoundariesDoNotMatter : Obligations.ChunkBoundariesDoNotMatter := by
  intro s a b
  refine ⟨fun hi => ?_, fun t ht => ?_⟩
  · obtain ⟨u, ms, hu, -⟩ := feedBytes_keeps (a ++ b) s hi
    exact ⟨_, exec_feed_of_feedBytes _ s u ms hu⟩
  · obtain ⟨w, ks, hw, -⟩ := exec_feed_next _ s t ht
    rw [feedBytes_append] at hw
    split at hw
    · cases hw
    next u ms ha =>
    split at hw
    · cases hw
    next w' ns hb =>
    obtain ⟨u', v, hexa, hua, hexb, hvb, hab⟩ := exec_feed_append a b s u w' ms ns ha hb
    cases ht.symm.trans hab
    exact ⟨u', v, ms, ns, _, hexa, hexb, hua, hvb, rfl⟩

/-- Settles O23: a chunk is its first byte, then the rest, and the byte steps answer from the invariant. -/
theorem feedFoldsTheByteStep : Obligations.FeedFoldsTheByteStep := by
  intro s b bs hi
  obtain ⟨u, ms, hu, hiu⟩ := feedBytes_keeps [b] s hi
  obtain ⟨w, ns, hw, -⟩ := feedBytes_keeps bs u hiu
  obtain ⟨u', v, h⟩ := exec_feed_append [b] bs s u w ms ns hu hw
  exact ⟨u', v, ms, ns, h⟩

/-- Settles O24: the byte steps answer from the invariant, and they and the result are all that FEED does. -/
theorem feedAnswersAndLeavesTheRest : Obligations.FeedAnswersAndLeavesTheRest := by
  intro s chunk hi
  obtain ⟨u, ms, hu, -⟩ := feedBytes_keeps chunk s hi
  obtain ⟨-, -, -, -, hres, -, -, -, hgrow⟩ := feedBytes_frame chunk s u ms hu
  refine ⟨rfl, _, ms, exec_feed_of_feedBytes chunk s u ms hu, by simp [hres], hgrow, ?_⟩
  rw [feedBytes_state_eq chunk s u ms hu]
  rfl

/-- Settles O25: an empty chunk has no byte step. -/
theorem feedOfAnEmptyChunkChangesNothing : Obligations.FeedOfAnEmptyChunkChangesNothing :=
  fun s => exec_feed_of_feedBytes [] s s [] rfl

/-- While the decoder is halted FEED drops the chunk and returns `([], 1)` (41_decoder.md R129). -/
theorem exec_feed_halted (chunk : Bytes) (s : State) (h : s.derr ≠ .none) :
    exec (.feed chunk) s = .next (pushResult (.feed [] true) s) := by
  rw [exec_feed_of_feedBytes chunk s s [] (feedBytes_halted chunk s h), decide_eq_true h]

/-- Settles O26: of the other commands only SOFT_RESET writes the decoder's part of the state. -/
theorem feedAfterAnErrorDropsEveryByte : Obligations.FeedAfterAnErrorDropsEveryByte := by
  refine ⟨fun s chunk h => exec_feed_halted chunk s h, fun i s t h hi he => ?_, fun s t he => ?_⟩
  · rcases exec_decoder_cases i s t he with ⟨chunk, u, ms, -, hu, rfl⟩ | ⟨hreset, -⟩ |
      ⟨-, hbuf, hlevel, hderr⟩
    · cases (feedBytes_halted chunk s h).symm.trans hu
      exact ⟨rfl, rfl, rfl⟩
    · exact absurd hreset hi
    · exact ⟨hderr, hbuf, hlevel⟩
  · cases he
    rfl

/-- Settles O35: the byte steps of two states that agree in the decoder's part go the same way, and write no other part
but `msg_log`. -/
theorem decoderReadsNoEncoderState : Obligations.DecoderReadsNoEncoderState := by
  intro s s' t chunk hsame ht
  obtain ⟨u, ms, hu, rfl⟩ := exec_feed_next chunk s t ht
  obtain ⟨u', hu', hcfg, hbuf, hlevel, hderr⟩ := feedBytes_congr chunk s s' u ms hsame hu
  obtain ⟨-, -, -, -, hres, -⟩ := feedBytes_frame chunk s u ms hu
  obtain ⟨-, henc, hcmd, htx, hres', -⟩ := feedBytes_frame chunk s' u' ms hu'
  refine ⟨_, .feed ms u.derr.isError, exec_feed_of_feedBytes chunk s' u' ms hu',
    ⟨hcfg, hbuf, hlevel, hderr⟩, by simp [hres], ?_, henc, hcmd, htx⟩
  simp [hres', hderr, isError_eq]

end Sys2Proof.Machine
end

section
/-! PROOFS. Each way out of ACCEPT_BYTE, as FEED of one byte (41_decoder.md R121; 60_exceptions.md R201, R202, R203). -/

namespace Sys2Proof.Machine

/-- FEED of one byte is its byte step (41_decoder.md R122). -/
theorem exec_feed_one (b : Byte) (s u : State) (ms : List Message)
    (h : acceptByte b s = .ok (u, ms)) :
    exec (.feed [b]) s = .next (pushResult (.feed ms (decide (u.derr ≠ .none))) u) :=
  exec_feed_of_feedBytes [b] s u ms (by simp [feedBytes, h])

/-- The entry of a decoder error while the decoder runs writes `derr` and nothing else (60_exceptions.md R206). -/
theorem raiseDecoder_eq_of_none (e : Derr) (s : State) (h : s.derr = .none) :
    raiseDecoder e s = { s with derr := e } := if_pos h

/-- The stored byte stands at address `level` (20_memory.md R42). -/
theorem appended_eq_write (b : Byte) (s : State) (h : s.buf.map Prod.fst = List.range s.level) :
    appended b s = { s with buf := Memory.write s.buf s.level b, level := s.level + 1 } := by
  rw [write_at_end s.buf s.level b (by simp [h])]
  rfl

/-- A Message is the one of a header's fields and a payload when its fields are (41_decoder.md R121). -/
theorem message_eq_of_fields (m : Message) (hd : Header) (payload : Bytes)
    (htype : m.messageType = hd.mtype)
    (hts : m.timestamp.toNat = hd.hi.toNat * 2 ^ 32 + hd.lo.toNat)
    (hpay : m.payload = payload) : m = ⟨hd.mtype, tsJoin hd.hi hd.lo, payload⟩ := by
  obtain ⟨_, ts, _⟩ := m
  have : ts = tsJoin hd.hi hd.lo := BitVec.eq_of_toNat_eq (hts.trans (tsJoin_toNat _ _).symm)
  simp_all

section
variable (s : State) (b : Byte) (hi : s.Inv) (hd : s.derr = .none) (hl : s.level ≠ s.cfg.bufCap)
include hi hd hl

/-- The length check fails when the byte completes an illegal length field (60_exceptions.md R201). -/
theorem acceptByte_malformed (h5 : s.level + 1 = 5) (fl : U32)
    (hfl : peekLength (retained s ++ [b]) = some fl) (hbad : legalLength s.cfg fl = false) :
    acceptByte b s = .ok (raise .malformedHeader (appended b s), []) := by
  rcases acceptByte_cases b s hi with ⟨hn, -⟩ | ⟨-, hfull, -⟩ | ⟨-, -, -, he⟩ | ⟨-, -, h13, -⟩ |
    ⟨-, -, h13, -⟩ | ⟨-, -, hshort | ⟨fl', hfl', hlegal, -⟩, -⟩
  · exact absurd hd hn
  · exact absurd hfull hl
  · exact he
  · omega
  · omega
  · omega
  · cases hfl.symm.trans hfl'
    cases hbad.symm.trans hlegal

/-- The byte that completes the head frame has it consumed: the range check, then the Message (60_exceptions.md R203). -/
theorem acceptByte_complete (h13 : 13 ≤ s.level + 1) (hdr : Header)
    (hu : unpackHeader (retained s ++ [b]) = some hdr) (hlen : s.level + 1 = 5 + hdr.fl.toNat) :
    (2 ^ 21 ≤ hdr.hi.toNat ∧
        acceptByte b s = .ok (raise .timestampRangeError (appended b s), [])) ∨
      (hdr.hi.toNat < 2 ^ 21 ∧
        acceptByte b s =
          .ok (bufDrop (emit ⟨hdr.mtype, tsJoin hdr.hi hdr.lo, (retained s ++ [b]).drop 13⟩
              (appended b s)),
            [⟨hdr.mtype, tsJoin hdr.hi hdr.lo, (retained s ++ [b]).drop 13⟩])) := by
  rcases acceptByte_cases b s hi with ⟨hn, -⟩ | ⟨-, hfull, -⟩ | ⟨-, h4, -⟩ |
    ⟨-, -, -, hdr', hu', -, -, hr, he⟩ | ⟨-, -, -, hdr', hu', -, -, hr, he⟩ |
    ⟨-, -, hshort | ⟨fl, hfl, -, hlt⟩, -⟩
  · exact absurd hd hn
  · exact absurd hfull hl
  · omega
  · cases hu.symm.trans hu'
    exact .inl ⟨hr, he⟩
  · cases hu.symm.trans hu'
    exact .inr ⟨hr, he⟩
  · omega
  · cases hfl.symm.trans (peekLength_of_unpackHeader _ _ hu)
    omega

/-- A byte that completes neither an illegal length field nor the head frame is retained (41_decoder.md R121). -/
theorem acceptByte_retained
    (h5 : s.level + 1 = 5 → ∃ fl, peekLength (retained s ++ [b]) = some fl ∧
      legalLength s.cfg fl = true)
    (h13 : 13 ≤ s.level + 1 → ∃ fl, peekLength (retained s ++ [b]) = some fl ∧
      s.level + 1 ≠ 5 + fl.toNat) :
    acceptByte b s = .ok (appended b s, []) := by
  have hopen : ∀ hdr, 13 ≤ s.level + 1 → unpackHeader (retained s ++ [b]) = some hdr →
      s.level + 1 ≠ 5 + hdr.fl.toNat := by
    intro hdr hge hu
    obtain ⟨fl, hfl, hne⟩ := h13 hge
    cases hfl.symm.trans (peekLength_of_unpackHeader _ _ hu)
    exact hne
  rcases acceptByte_cases b s hi with ⟨hn, -⟩ | ⟨-, hfull, -⟩ | ⟨-, h4, ⟨fl, hfl, hbad⟩, -⟩ |
    ⟨-, -, hge, hdr, hu, -, hlen, -⟩ | ⟨-, -, hge, hdr, hu, -, hlen, -⟩ | ⟨-, -, -, he⟩
  · exact absurd hd hn
  · exact absurd hfull hl
  · obtain ⟨fl', hfl', hlegal⟩ := h5 (by omega)
    cases hfl.symm.trans hfl'
    cases hbad.symm.trans hlegal
  · exact absurd hlen (hopen hdr hge hu)
  · exact absurd hlen (hopen hdr hge hu)
  · exact he

end

/-- Settles O22: each clause is one way out of the byte step, with the next state written out. -/
theorem feedOfOneByteFollowsAcceptByte : Obligations.FeedOfOneByteFollowsAcceptByte := by
  intro s b hi
  have happ := appended_eq_write b s hi.2.1
  have hraise := fun e hd => raiseDecoder_eq_of_none e (appended b s) hd
  refine ⟨fun hd => exec_feed_halted [b] s hd, fun hd hl => ?_, fun hd hl h5 fl hfl hbad => ?_,
    fun hd hl h13 hdr hu hlen => ⟨fun hr => ?_, fun hr m htype hts hpay => ?_⟩,
    fun hd hl h5 h13 => ?_⟩
  · rw [exec_feed_one b s _ _ (acceptByte_full b s hd hl), raise, raiseDecoder_eq_of_none _ s hd]
    rfl
  · have hbad' : legalLength s.cfg fl = false := by
      rw [← Bool.not_eq_true, legalLength_iff]
      omega
    rw [exec_feed_one b s _ _ (acceptByte_malformed s b hi hd hl h5 fl hfl hbad'), raise,
      hraise _ hd, happ]
    rfl
  · rcases acceptByte_complete s b hi hd hl h13 hdr hu hlen with ⟨-, he⟩ | ⟨hr', -⟩
    · rw [exec_feed_one b s _ _ he, raise, hraise _ hd, happ]
      rfl
    · omega
  · rcases acceptByte_complete s b hi hd hl h13 hdr hu hlen with ⟨hr', -⟩ | ⟨-, he⟩
    · omega
    · rw [← message_eq_of_fields m hdr _ htype hts hpay] at he
      rw [exec_feed_one b s _ _ he]
      simp [bufDrop, emit, appended, pushResult, hd]
  · have h5' : s.level + 1 = 5 → ∃ fl, peekLength (retained s ++ [b]) = some fl ∧
        legalLength s.cfg fl = true := by
      simpa only [legalLength_iff, peekLength] using h5
    rw [exec_feed_one b s _ _ (acceptByte_retained s b hi hd hl h5' h13), happ]
    simp [pushResult, hd]

end Sys2Proof.Machine
end

section
/-! PROOFS. What the decoder retains and emits while it runs: FEED cuts the retained bytes and the chunk into frames and
one incomplete frame (41_decoder.md R123, R124, R131). -/

namespace Sys2Proof.Machine

/-- `u32be` gives back the four bytes of a big-endian word (00_scope.md R13). -/
theorem u32be_wordOf (b0 b1 b2 b3 : Byte) : u32be (wordOf b0 b1 b2 b3) = [b0, b1, b2, b3] := by
  have hbytes : List.map BitVec.toNat (u32be (wordOf b0 b1 b2 b3)) =
      List.map BitVec.toNat [b0, b1, b2, b3] := by
    rw [u32be_map_toNat, wordOf_toNat]
    simp only [List.map_cons, List.map_nil, List.cons.injEq, and_true]
    omega
  exact List.map_injective_iff.mpr (fun _ _ => BitVec.eq_of_toNat_eq) hbytes

/-- The bytes that `be32` reads are those that `u32be` writes. -/
theorem take_drop_of_be32 (s : Bytes) (i : Nat) (v : U32) (h : be32 s i = some v) :
    (s.drop i).take 4 = u32be v := by
  unfold be32 at h
  split at h
  next b0 b1 b2 b3 rest hs =>
    cases h
    rw [hs, u32be_wordOf]
    rfl
  · cases h

/-- Bytes that start a frame but do not complete it: the length prefix, or the frame it announces, is not all there. -/
def Incomplete (r : Bytes) : Prop := ∀ fl, peekLength r = some fl → r.length < 5 + fl.toNat

/-- While the decoder runs it retains one incomplete frame (10_state.md R22). -/
theorem retained_incomplete (s : State) (hi : s.Inv) (hd : s.derr = .none) :
    Incomplete (retained s) := by
  obtain ⟨-, hkeys, -, hhead⟩ := hi
  have hlen := retained_length s hkeys
  intro fl hfl
  rcases (headFrameOk_running s hd).mp hhead with hshort | ⟨fl', hfl', -, hlt⟩
  · have h5 := (peekLength_isSome_iff (retained s)).mp (by simp [hfl])
    omega
  · cases hfl.symm.trans hfl'
    omega

/-- Settles O31: the invariant after FEED bounds `level`, and its length field is read by `BufRead(1, 4)`. -/
theorem retainedBytesAreOneIncompleteFrame : Obligations.RetainedBytesAreOneIncompleteFrame := by
  intro s t chunk hi ht
  obtain ⟨-, hkeys, hcap, hhead⟩ := exec_keeps_inv (.feed chunk) s t hi ht
  refine ⟨hcap, fun hd => ?_⟩
  rcases (headFrameOk_running t hd).mp hhead with hshort | ⟨fl, hfl, hlegal, hlt⟩
  · exact .inl (by omega)
  · have h5 := (peekLength_isSome_iff (retained t)).mp (by simp [hfl])
    rw [retained_length t hkeys] at h5
    rw [legalLength_iff] at hlegal
    refine .inr ⟨fl, ?_, hlt, by omega⟩
    rw [bufRead_eq 1 4 t hkeys (by omega), take_drop_of_be32 _ 1 fl hfl]

/-- A byte step that raises no error retains its byte, or completes a frame, emits its Message and empties the buffer
(41_decoder.md R121). -/
theorem acceptByte_running_cases (b : Byte) (s u : State) (ms : List Message) (hi : s.Inv)
    (h : acceptByte b s = .ok (u, ms)) (hd : u.derr = .none) :
    (u = appended b s ∧ ms = []) ∨
      (retained u = [] ∧ ∃ m, ms = [m] ∧ Spells s.cfg (retained s ++ [b]) m) := by
  have hlen := retained_length s hi.2.1
  rcases acceptByte_cases b s hi with ⟨hn, he⟩ | ⟨hn, -, -, he⟩ | ⟨hn, -, -, he⟩ |
    ⟨hn, -, -, hdr, -, -, -, -, he⟩ | ⟨hn, hcap, -, hdr, hu, hlegal, hl, hts, he⟩ | ⟨-, -, -, he⟩
  · cases he.symm.trans h
    exact absurd hd hn
  · cases he.symm.trans h
    cases (raiseDecoder_derr_of_none .bufferOverflow s hn).symm.trans hd
  · cases he.symm.trans h
    cases (raiseDecoder_derr_of_none .malformedHeader (appended b s) hn).symm.trans hd
  · cases he.symm.trans h
    cases (raiseDecoder_derr_of_none .timestampRangeError (appended b s) hn).symm.trans hd
  · cases he.symm.trans h
    refine .inr ⟨rfl, _, rfl, hdr, hu, hlegal, ?_, ?_, hts, rfl⟩
    · simpa [hlen] using hl
    · simpa [hlen] using hcap
  · cases he.symm.trans h
    exact .inl ⟨rfl, rfl⟩

/-- A chunk that ends with no error had none at any byte, since only a reset leaves an error (41_decoder.md R129). -/
theorem derr_none_of_feedBytes (chunk : Bytes) (s u : State) (ms : List Message)
    (h : feedBytes chunk s = .ok (u, ms)) (hd : u.derr = .none) : s.derr = .none := by
  by_contra hs
  cases (feedBytes_halted chunk s hs).symm.trans h
  exact hs hd

/-- A chunk fed with no error: the retained bytes and the chunk are the frames of the emitted Messages, then what is
retained at the end. -/
theorem feedBytes_frames (chunk : Bytes) (s u : State) (ms : List Message) (hi : s.Inv)
    (h : feedBytes chunk s = .ok (u, ms)) (hd : u.derr = .none) :
    ∃ frames, List.Forall₂ (Spells s.cfg) frames ms ∧
      retained s ++ chunk = frames.flatten ++ retained u := by
  induction chunk generalizing s ms with
  | nil =>
    cases h
    exact ⟨[], .nil, by simp⟩
  | cons b bs ih =>
    obtain ⟨s1, m1, h1, hi1⟩ := acceptByte_keeps b s hi
    obtain ⟨s2, m2, h2, -⟩ := feedBytes_keeps bs s1 hi1
    obtain ⟨hcfg, -⟩ := acceptByte_frame b s s1 m1 h1
    simp only [feedBytes, h1, h2] at h
    cases h
    obtain ⟨frames, hspell, hbytes⟩ := ih s1 m2 hi1 h2
    rw [hcfg] at hspell
    have hd1 := derr_none_of_feedBytes bs s1 _ m2 h2 hd
    rcases acceptByte_running_cases b s s1 m1 hi h1 hd1 with ⟨rfl, rfl⟩ | ⟨hempty, m, rfl, hm⟩
    · exact ⟨frames, hspell, by simpa using hbytes⟩
    · refine ⟨(retained s ++ [b]) :: frames, .cons hm hspell, ?_⟩
      rw [hempty, List.nil_append] at hbytes
      simp [hbytes]

/-- Settles O28: no Message, so no frame, and the retained bytes grow by the chunk. -/
theorem feedWithoutACompleteFrameKeepsEveryByte :
    Obligations.FeedWithoutACompleteFrameKeepsEveryByte := by
  intro s t chunk hi ht hlog hd
  have hit := exec_keeps_inv (.feed chunk) s t hi ht
  obtain ⟨u, ms, hu, rfl⟩ := exec_feed_next chunk s t ht
  obtain ⟨-, -, -, -, hres, -, -, -, hgrow⟩ := feedBytes_frame chunk s u ms hu
  have hms : ms = [] := by
    rw [pushResult_msgLog, hgrow] at hlog
    exact List.append_right_eq_self.mp hlog
  subst hms
  obtain ⟨frames, hspell, hbytes⟩ := feedBytes_frames chunk s u [] hi hu hd
  cases hspell
  rw [List.flatten_nil, List.nil_append] at hbytes
  have hs := retained_length s hi.2.1
  have ht := retained_length u hit.2.1
  refine ⟨?_, ?_, fun a => ?_⟩
  · rw [pushResult_results, hres, isError_eq, show u.derr = .none from hd]
    rfl
  · rw [pushResult_level, ← ht, ← hbytes, List.length_append, hs]
  · rw [read_of_keys _ _ a hit.2.1, read_of_keys s.buf _ a hi.2.1]
    change (retained u)[a]? = if a < s.level then (retained s)[a]? else _
    rw [← hbytes, List.getElem?_append, hs]

/-- BMAN's loop stops at an incomplete frame (41_decoder.md R123). -/
theorem bmanLoop_incomplete (p : Bytes) (fuel cursor : Nat) (h : Incomplete (p.drop cursor)) :
    bmanLoop p fuel cursor = ([], cursor) := by
  cases fuel with
  | zero => rfl
  | succ fuel =>
    have hpeek : peekLength (p.drop cursor) = be32 p (cursor + 1) := be32_drop p cursor 1
    simp only [bmanLoop]
    split
    · rfl
    next fl hfl =>
      have hlt := h fl (hpeek.trans hfl)
      rw [List.length_drop] at hlt
      rw [if_pos hlt]

/-- A round of BMAN's loop at a frame emits its Message and moves the cursor past it (41_decoder.md R123). -/
theorem bmanLoop_frame (c : Config) (p f q : Bytes) (m : Message) (fuel cursor : Nat)
    (hp : p.drop cursor = f ++ q) (hm : Spells c f m) :
    bmanLoop p (fuel + 1) cursor =
      (m :: (bmanLoop p fuel (cursor + f.length)).1, (bmanLoop p fuel (cursor + f.length)).2) := by
  obtain ⟨hd, hu, hlegal, hlen, -, -, rfl⟩ := hm
  rw [legalLength_iff] at hlegal
  have hu' : unpackHeader (p.drop cursor) = some hd := by
    rw [hp, unpackHeader_append f q (by omega), hu]
  obtain ⟨ht, hfl, hhi, hlo⟩ := (unpackHeader_eq_some _ _).mp hu'
  rw [be32_drop] at hfl hhi hlo
  rw [List.getElem?_drop, Nat.add_zero] at ht
  have hroom : ¬ p.length - cursor < f.length := by
    rw [← List.length_drop, hp, List.length_append]
    omega
  have hpay : (p.take (cursor + f.length)).drop (cursor + 13) = f.drop 13 := by
    rw [← List.drop_drop, List.drop_take, Nat.add_sub_cancel_left, hp,
      List.take_left' rfl]
  simp only [bmanLoop, hfl, ht, hhi, hlo, Nat.add_assoc, ← hlen, if_neg hroom, hpay]

/-- BMAN's loop on frames and one incomplete frame emits the frames' Messages and stops after them, with one round of
fuel for each frame. -/
theorem bmanLoop_frames (c : Config) (p r : Bytes) (frames : List Bytes) (ms : List Message)
    (fuel cursor : Nat) (hm : List.Forall₂ (Spells c) frames ms) (hr : Incomplete r)
    (hp : p.drop cursor = frames.flatten ++ r) (hfuel : frames.length ≤ fuel) :
    bmanLoop p fuel cursor = (ms, cursor + frames.flatten.length) := by
  induction hm generalizing fuel cursor with
  | nil => exact bmanLoop_incomplete p fuel cursor (by rwa [hp])
  | @cons f m frames ms hf _ ih =>
    obtain ⟨fuel, rfl⟩ := Nat.exists_eq_add_of_le' (Nat.lt_of_lt_of_le (Nat.succ_pos _) hfuel)
    rw [List.flatten_cons, List.append_assoc] at hp
    have hrest : p.drop (cursor + f.length) = frames.flatten ++ r := by
      rw [← List.drop_drop, hp, List.drop_left]
    rw [bmanLoop_frame c p f _ m fuel cursor hp hf, ih fuel _ hrest (Nat.le_of_succ_le_succ hfuel)]
    simp [Nat.add_assoc]

/-- A frame is not empty, so there are no more frames than bytes. -/
theorem length_le_flatten_of_spells (c : Config) (frames : List Bytes) (ms : List Message)
    (h : List.Forall₂ (Spells c) frames ms) : frames.length ≤ frames.flatten.length := by
  induction h with
  | nil => exact Nat.le_refl 0
  | cons hf _ ih =>
    obtain ⟨hd, -, -, hlen, -⟩ := hf
    simp only [List.flatten_cons, List.length_append, List.length_cons]
    omega

/-- BMAN's chunk algorithm on bytes that are frames and one incomplete frame (41_decoder.md R123). -/
theorem feedBman_of_frames (c : Config) (kept chunk r : Bytes) (frames : List Bytes)
    (ms : List Message) (hm : List.Forall₂ (Spells c) frames ms) (hr : Incomplete r)
    (hp : kept ++ chunk = frames.flatten ++ r) : feedBman kept chunk = (ms, r) := by
  have hfuel : frames.length ≤ (kept ++ chunk).length := by
    have := length_le_flatten_of_spells c frames ms hm
    rw [hp, List.length_append]
    omega
  have hloop := bmanLoop_frames c (kept ++ chunk) r frames ms _ 0 hm hr hp hfuel
  simp only [feedBman, hloop, Nat.zero_add]
  rw [hp, List.drop_left]

/-- Settles O30: both cut the retained bytes and the chunk into the same frames and one incomplete frame. -/
theorem feedAgreesWithTheChunkAlgorithm : Obligations.FeedAgreesWithTheChunkAlgorithm := by
  intro s t chunk hi _ ht hd
  have hit := exec_keeps_inv (.feed chunk) s t hi ht
  obtain ⟨u, ms, hu, rfl⟩ := exec_feed_next chunk s t ht
  obtain ⟨-, -, -, -, hres, -⟩ := feedBytes_frame chunk s u ms hu
  obtain ⟨frames, hm, hp⟩ := feedBytes_frames chunk s u ms hi hu hd
  rw [feedBman_of_frames s.cfg _ chunk _ frames ms hm (retained_incomplete _ hit hd) hp]
  refine ⟨?_, ?_⟩
  · rw [pushResult_results, hres, isError_eq, show u.derr = .none from hd]
    rfl
  · rw [bufRead_eq 0 _ _ hit.2.1 (by omega), List.drop_zero,
      List.take_of_length_le (retained_length _ hit.2.1).le]

end Sys2Proof.Machine
end

section
/-! PROOFS. The frame encoder: its three ways out, that it keeps no state, the action payload, and that the decoder gives
back the Message of the frame it returned (42_encoder.md R160, R162 to R165). -/

namespace Sys2Proof.Machine

/-- ENCODE answers in every state with what the encoder does (42_encoder.md R160). -/
theorem exec_encode (m : Byte) (ts : U64) (p : Bytes) (s : State) :
    exec (.encode m ts p) s = .next (runEncoder m ts p s) := rfl

/-- SEND_ACTION is ENCODE of the action payload under `ACTION_MSG_TYPE` at `now_ms` (42_encoder.md R164). -/
theorem exec_sendAction_eq_encode (userId : U32) (keys : BitVec 5) (s : State) :
    exec (.sendAction userId keys) s =
      exec (.encode s.cfg.actionMsgType s.nowMs (actionPayload userId keys)) s := rfl

/-- An ENCODE that returned a frame with error bit 0 accepted its operands, and sent that frame (42_encoder.md R160). -/
theorem encodeFrame_of_exec (m : Byte) (ts : U64) (p f : Bytes) (s u : State)
    (h : exec (.encode m ts p) s = .next u)
    (hres : u.results = s.results ++ [.frame f false none]) :
    encodeFrame s.cfg.maxFrameLen m ts p = .ok f ∧
      u = pushResult (.frame f false none) (send f s) := by
  cases h
  cases hf : encodeFrame s.cfg.maxFrameLen m ts p with
  | error r => simp [runEncoder_refused _ _ _ _ _ hf] at hres
  | ok f' =>
    have hrun := runEncoder_accepted _ _ _ _ _ hf
    obtain rfl : f' = f := by simpa [hrun] using hres
    exact ⟨rfl, hrun⟩

/-- FEEDs send nothing (41_decoder.md R134). -/
theorem execSeq_feed_txLog (chunks : List Bytes) (s t : State)
    (h : execSeq (chunks.map Instr.feed) s = .next t) : t.txLog = s.txLog := by
  induction chunks generalizing s with
  | nil =>
    cases h
    rfl
  | cons c chunks ih =>
    rw [List.map_cons, execSeq] at h
    split at h
    · next v hv =>
      obtain ⟨w, ms, hw, rfl⟩ := exec_feed_next c s v hv
      obtain ⟨-, -, -, htx, -⟩ := feedBytes_frame c s w ms hw
      exact (ih _ h).trans htx
    · cases h
    · cases h

/-- Settles O40: the returned frame spells the encoded Message, the encoder left the decoder's part alone, and FEEDs of a
frame's chunks are its byte steps. -/
theorem feedOfAnEncodedFrameIsTheMessage : Obligations.FeedOfAnEncodedFrameIsTheMessage := by
  rintro s u m ts p f chunks hi hd hl hcap hexec hres rfl
  obtain ⟨hf, rfl⟩ := encodeFrame_of_exec m ts p _ s u hexec hres
  have hspells := spells_of_encodeFrame s.cfg ⟨m, ts, p⟩ _ hi.1 hcap hf
  have hiu := inv_of_sameDecoder s
    (pushResult (.frame chunks.flatten false none) (send chunks.flatten s)) ⟨rfl, rfl, rfl, rfl⟩ hi
  obtain ⟨v, hv, hlv, hdv⟩ := feedBytes_of_frame _ _ _ hiu hd hl hspells
  obtain ⟨t, ht, ⟨-, -, hlt, hdt⟩, hlog⟩ := execSeq_feed chunks _ v _ hv
  exact ⟨t, ht, hlog, hlt.trans hlv, hdt.trans hdv, execSeq_feed_txLog chunks _ t ht⟩

/-- The length check comes first (42_encoder.md R160). -/
theorem encodeFrame_of_long (maxLen : Nat) (m : Byte) (ts : U64) (p : Bytes)
    (h : maxLen < 8 + p.length) : encodeFrame maxLen m ts p = .error .length := if_pos h

/-- The timestamp check follows a passed length check (42_encoder.md R160). -/
theorem encodeFrame_of_late (maxLen : Nat) (m : Byte) (ts : U64) (p : Bytes)
    (hlen : 8 + p.length ≤ maxLen) (hts : 2 ^ 53 ≤ ts.toNat) :
    encodeFrame maxLen m ts p = .error .timestamp := by
  rw [encodeFrame, if_neg (Nat.not_lt.mpr hlen), if_pos hts]

/-- The frame ENCODE sends, by its fields: `8 + L` is a `u32` because `MAX_FRAME_LEN` is (42_encoder.md R160). -/
theorem encodedFrame_fields (m : Byte) (ts : U64) (p f : Bytes) (maxLen : Nat)
    (hmax : maxLen < 2 ^ 32) (h : encodeFrame maxLen m ts p = .ok f) :
    ∃ fl hi lo, f.length = 13 + p.length ∧ f[0]? = some m ∧
      be32 f 1 = some fl ∧ fl.toNat = 8 + p.length ∧
      be32 f 5 = some hi ∧ hi.toNat = ts.toNat / 2 ^ 32 ∧
      be32 f 9 = some lo ∧ lo.toNat = ts.toNat % 2 ^ 32 ∧ f.drop 13 = p := by
  obtain ⟨hlen, -, rfl⟩ := (encodeFrame_eq_ok _ _ _ _ _).mp h
  obtain ⟨hm, hfl, hhi, hlo⟩ := (unpackHeader_eq_some _ _).mp (unpackHeader_packHeader m
    (BitVec.ofNat 32 (8 + p.length)) (tsHi ts) (tsLo ts) p)
  refine ⟨_, _, _, ?_, hm, hfl, ?_, hhi, tsHi_toNat ts, hlo, tsLo_toNat ts, ?_⟩
  · rw [List.length_append, packHeader_length]
  · rw [BitVec.toNat_ofNat, Nat.mod_eq_of_lt (by omega)]
  · rw [List.drop_left' (packHeader_length _ _ _ _)]

/-- `MAX_FRAME_LEN` of a legal build is a `u32` (00_scope.md R7). -/
theorem maxFrameLen_lt_of_wf (c : Config) (h : c.wf = true) : c.maxFrameLen < 2 ^ 32 := by
  simp only [Config.wf, Bool.and_eq_true, decide_eq_true_eq] at h
  omega

/-- Settles O36: each check's outcome decides what the encoder does, and a frame that passes both is the packed header and
the payload. -/
theorem encodeFollowsItsRule : Obligations.EncodeFollowsItsRule := by
  intro m ts p s hwf
  refine ⟨rfl, fun hlong => ?_, fun hlen hlate => ?_, fun hlen hts => ?_⟩
  · rw [exec_encode, runEncoder_refused _ _ _ _ _ (encodeFrame_of_long _ m ts p hlong)]
    rfl
  · rw [exec_encode, runEncoder_refused _ _ _ _ _ (encodeFrame_of_late _ m ts p hlen hlate)]
    rfl
  · have hf := (encodeFrame_eq_ok s.cfg.maxFrameLen m ts p _).mpr ⟨hlen, hts, rfl⟩
    obtain ⟨fl, hi, lo, hfields⟩ :=
      encodedFrame_fields m ts p _ _ (maxFrameLen_lt_of_wf s.cfg hwf) hf
    refine ⟨_, fl, hi, lo, ?_, hfields⟩
    rw [exec_encode, runEncoder_accepted _ _ _ _ _ hf]
    rfl

/-- Settles O37: the outcome of the checks, a function of the operands and `MAX_FRAME_LEN`, is all the encoder acts on. -/
theorem encoderIsStateless : Obligations.EncoderIsStateless := by
  intro m ts p maxLen
  cases hf : encodeFrame maxLen m ts p with
  | error r =>
    refine ⟨[], true, some r, fun s hs => ?_⟩
    rw [exec_encode, runEncoder_refused _ _ _ _ _ (hs ▸ hf), List.append_nil, Bool.or_true]
    rfl
  | ok f =>
    refine ⟨f, false, none, fun s hs => ?_⟩
    rw [exec_encode, runEncoder_accepted _ _ _ _ _ (hs ▸ hf), Bool.or_false]
    rfl

/-- Settles O39: ENCODE's rule for the five bytes of the action payload. -/
theorem sendActionFollowsItsRule : Obligations.SendActionFollowsItsRule := by
  intro userId keys s hwf
  obtain ⟨-, hlong, hlate, hsent⟩ :=
    encodeFollowsItsRule s.cfg.actionMsgType s.nowMs (actionPayload userId keys) s hwf
  exact ⟨rfl, exec_sendAction_eq_encode userId keys s, hlong, hlate, hsent⟩

/-- actionBits is the keys as a number: zero extension (42_encoder.md R163). -/
theorem actionBits_toNat (keys : BitVec 5) : (actionBits keys).toNat = keys.toNat :=
  BitVec.toNat_setWidth_of_le (by decide)

/-- Settles O38: the four bytes of `u32be` join to the userId, and actionBits is the keys' number. -/
theorem actionPayloadFollowsItsRule : Obligations.ActionPayloadFollowsItsRule := by
  intro userId keys
  have hbytes := congrArg BitVec.toNat (wordOf_u32be userId)
  rw [wordOf_toNat] at hbytes
  refine ⟨_, _, _, _, _, rfl, hbytes.symm, actionBits_toNat keys, ?_⟩
  rw [actionBits_toNat]
  exact keys.isLt

end Sys2Proof.Machine
end

section
/-! PROOFS. The tx port: each frame's header segment, then its payload segment (42_encoder.md R161). -/

namespace Sys2Proof.Machine

/-- A segment's beats carry its bytes in order (42_encoder.md R161). -/
theorem map_txData_beats (seg : Bool) (bs : Bytes) :
    (bs.map (fun b => ({ txData := b, txSeg := seg } : TxBeat))).map TxBeat.txData = bs := by
  rw [List.map_map]
  exact List.map_id bs

/-- Every beat of a segment carries its `tx_seg` (42_encoder.md R161). -/
theorem txSeg_of_mem_beats (seg : Bool) (bs : Bytes) :
    ∀ b ∈ bs.map (fun b => ({ txData := b, txSeg := seg } : TxBeat)), b.txSeg = seg :=
  List.forall_mem_map.mpr fun _ _ => rfl

/-- The tx port carries every byte of a frame once, in frame order (42_encoder.md R161). -/
theorem txBeats_map_txData (f : Bytes) : (txBeats f).map TxBeat.txData = f := by
  rw [txBeats, List.map_append, map_txData_beats, map_txData_beats]
  exact List.take_append_drop headerSize f

/-- Settles O56: the segments are the frame's first 13 bytes and the rest, and the results' frames, one after another, are
`tx_log`. -/
theorem txPortSendsHeaderThenPayload : Obligations.TxPortSendsHeaderThenPayload := by
  refine ⟨fun frame => ⟨_, _, rfl, map_txData_beats _ _, map_txData_beats _ _,
    txSeg_of_mem_beats _ _, txSeg_of_mem_beats _ _⟩, fun s hs => ?_⟩
  obtain ⟨-, htx⟩ := hs
  simp only [txPort, List.map_flatten, List.map_map, Function.comp_def, txBeats_map_txData, htx]

end Sys2Proof.Machine
end

section
/-! PROOFS. READ_STATUS: the fields of STATUS are the error indications, and nothing is written (10_state.md R29;
43_control.md R190). -/

namespace Sys2Proof.Machine

/-- READ_STATUS answers in every state with the two status registers, and does nothing else (43_control.md R190). -/
theorem exec_readStatus (s : State) :
    exec .readStatus s = .next (pushResult (.status (statusReg s) (levelReg s)) s) := rfl

/-- STATUS below bit 3: DEC_CODE and DEC_ERR (10_state.md R29). -/
theorem decoderFields_lt (d : Derr) : d.code.toNat * 2 + d.isError.toNat < 2 ^ 3 := by
  cases d <;> decide

/-- STATUS fits in its five assigned bits (10_state.md R29). -/
theorem statusReg_toNat_lt (s : State) : (statusReg s).toNat < 2 ^ 5 := by
  have hdec := decoderFields_lt s.derr
  have henc := s.encErr.toNat_le
  have hcmd := s.cmdErr.toNat_le
  rw [statusReg_toNat]
  omega

/-- STATUS bits 2:1 are DEC_CODE (10_state.md R29). -/
theorem statusReg_code (s : State) : (statusReg s).toNat / 2 % 4 = s.derr.code.toNat := by
  have hcode : s.derr.code.toNat < 4 := s.derr.code.isLt
  have herr := s.derr.isError.toNat_le
  rw [statusReg_toNat]
  omega

/-- A register's bit is the parity of its quotient by the bit's weight. -/
theorem getLsbD_of_div_mod {w k : Nat} {x : BitVec w} {b : Bool}
    (h : x.toNat / 2 ^ k % 2 = b.toNat) : x.getLsbD k = b := by
  rw [BitVec.getLsbD, Nat.testBit_eq_decide_div_mod_eq, h]
  cases b <;> rfl

/-- STATUS bit 3 is `enc_err` (10_state.md R29). -/
theorem statusReg_bit3 (s : State) : (statusReg s).getLsbD 3 = s.encErr := by
  apply getLsbD_of_div_mod
  have hdec := decoderFields_lt s.derr
  have henc := s.encErr.toNat_le
  rw [statusReg_toNat]
  omega

/-- STATUS bit 4 is `cmd_err` (10_state.md R29). -/
theorem statusReg_bit4 (s : State) : (statusReg s).getLsbD 4 = s.cmdErr := by
  apply getLsbD_of_div_mod
  have hdec := decoderFields_lt s.derr
  have henc := s.encErr.toNat_le
  have hcmd := s.cmdErr.toNat_le
  rw [statusReg_toNat]
  omega

/-- Settles O42: field by field of STATUS, each an error indication of the state. -/
theorem readStatusFollowsItsRule : Obligations.ReadStatusFollowsItsRule := by
  intro s
  refine ⟨rfl, statusReg s, levelReg s, exec_readStatus s, ?_, ?_, statusReg_bit3 s,
    statusReg_bit4 s, statusReg_toNat_lt s, levelReg_toNat s⟩
  · rw [statusReg_bit0, isError_eq]
  · rw [statusReg_code]
    cases s.derr <;> rfl

end Sys2Proof.Machine
end

section
/-! PROOFS. The command interface: a step takes the oldest input and runs it, and a reserved opcode is only recorded
(43_control.md R192, R193; 20_memory.md R56). -/

namespace Sys2Proof.Machine

/-- Settles O6: a step takes its oldest input and runs what the input decodes to. -/
theorem stepRunsTheDecodedCommand : Obligations.StepRunsTheDecodedCommand := step_of_decode

/-- Settles O7: the command that `encode` puts on the interface decodes to the one it was made from. -/
theorem stepRunsTheEncodedCommand : Obligations.StepRunsTheEncodedCommand :=
  fun s i now rest hwf hin =>
    step_of_decode s (encode i) now rest i hin (decodeOfEncodeIsTheCommand i hwf)

/-- No command writes the inputs: they are no state element (10_state.md R21; log entry 4). -/
theorem exec_inputs (i : Instr) (s t : State) (h : exec i s = .next t) : t.inputs = s.inputs := by
  rcases exec_cases i s t h with ⟨chunk, u, ms, -, hu, rfl⟩ | ⟨-, ⟨r, rfl⟩ | ⟨f, rfl⟩⟩ |
    ⟨-, r, rfl, -, -⟩ | ⟨-, rfl⟩ | ⟨-, rfl⟩
  · obtain ⟨-, -, -, -, -, -, -, hkeep, -⟩ := feedBytes_frame chunk s u ms hu
    exact hkeep
  · rfl
  · rfl
  · rfl
  · rfl
  · rfl

/-- Settles O9: by the ways a step answers.  The input taken is the queue's head, and neither a command nor a reset writes
what is left of the queue. -/
theorem stepTakesTheOldestInputOnly : Obligations.StepTakesTheOldestInputOnly := by
  intro s t x rest hin h
  rcases step_cases s t h with ⟨hnil, -⟩ | ⟨c, now, rest', i, hcons, -, he⟩ | ⟨rest', hcons, rfl⟩ |
    ⟨c, now, k, rest', i, u, hcons, -, hu, rfl⟩
  · cases hin.symm.trans hnil
  · cases hin.symm.trans hcons
    exact exec_inputs i _ t he
  · cases hin.symm.trans hcons
    rfl
  · cases hin.symm.trans hcons
    obtain ⟨-, -, -, -, hkeep, -⟩ := outputSoFar_frame i k _ u hu
    exact hkeep

/-- An opcode is no less than its high bits in place. -/
theorem toNat_shiftLeft_le_append {v w : Nat} (hi : BitVec v) (lo : BitVec w) :
    hi.toNat <<< w ≤ (hi ++ lo).toNat := by
  rw [BitVec.toNat_append]
  exact Nat.left_le_or

/-- A reserved command's opcode is 0x00 or one of 0x08..0xFF: its row's fixed bits alone are at least 8
(30_encoding.md R73). -/
theorem encode_op_of_isReserved (i : Instr) (h : i.isReserved = true) :
    (encode i).op = 0x00#8 ∨ 8 ≤ (encode i).op.toNat := by
  cases i with
  | feed | encode | sendAction | tsSplit | tsJoin | readStatus | softReset => cases h
  | reserved00 => exact .inl rfl
  | reserved08 o => exact .inr (toNat_shiftLeft_le_append 0b00001#5 o)
  | reserved10 o => exact .inr (Nat.le_trans (by decide) (toNat_shiftLeft_le_append 0b0001#4 o))
  | reserved20 o => exact .inr (Nat.le_trans (by decide) (toNat_shiftLeft_le_append 0b001#3 o))
  | reserved40 o => exact .inr (Nat.le_trans (by decide) (toNat_shiftLeft_le_append 0b01#2 o))
  | reserved80 o => exact .inr (Nat.le_trans (by decide) (toNat_shiftLeft_le_append 0b1#1 o))

/-- Settles O44: the rows of the reserved opcodes start at 0x08 but for 0x00, and all of them have the one meaning. -/
theorem reservedFormsSetCmdErrOnly : Obligations.ReservedFormsSetCmdErrOnly :=
  fun i h => ⟨encode_op_of_isReserved i h, fun s => exec_of_isReserved i s h⟩

end Sys2Proof.Machine
end

section
/-! PROOFS. Every command terminates: from the invariant a step with an input that decodes answers, and a queue of such
inputs is worked off (43_control.md R194). -/

namespace Sys2Proof.Machine

/-- The command that stands in the input, where there is one, decodes (30_encoding.md R72; log entry 5). -/
def Input.Decodes : Input → Prop
  | .command c _ => ∃ i, decode c = .ok i
  | .rst => True
  | .commandCutByRst c _ _ => ∃ i, decode c = .ok i

/-- Every command has a meaning. -/
theorem exec_ne_refused (i : Instr) (s : State) (r : Refusal) : exec i s ≠ .refused r := by
  cases i with
  | feed chunk =>
    simp only [exec, execFeed]
    split <;> nofun
  | encode _ _ _ | sendAction _ _ | tsSplit _ | tsJoin _ _ | readStatus | softReset | reserved00
  | reserved08 _ | reserved10 _ | reserved20 _ | reserved40 _ | reserved80 _ => nofun

/-- No input that decodes is refused (log entry 5). -/
theorem runInput_ne_refused (x : Input) (s : State) (r : Refusal) (hx : x.Decodes) :
    runInput x s ≠ .refused r := by
  cases x with
  | command c now =>
    obtain ⟨i, hdec⟩ := hx
    simpa only [runInput, hdec] using exec_ne_refused i _ r
  | rst => nofun
  | commandCutByRst c now k =>
    obtain ⟨i, hdec⟩ := hx
    simp only [runInput, hdec, cutByReset]
    split <;> nofun

/-- From the invariant a step whose oldest input decodes answers: it neither faults nor is refused. -/
theorem step_answers (s : State) (x : Input) (rest : List Input) (hi : s.Inv)
    (hin : s.inputs = x :: rest) (hx : x.Decodes) : ∃ t, step s = .next t := by
  cases h : step s with
  | next t => exact ⟨t, rfl⟩
  | fault f => exact absurd h (stepNeverFaults s f hi)
  | refused r =>
    simp only [step, takeInput, hin] at h
    exact absurd h (runInput_ne_refused x _ r hx)

/-- A run whose first step answers goes on from the answer. -/
theorem run_succ_of_step (n : Nat) (s t : State) (h : step s = .next t) :
    Host.Core.run core (n + 1) s = Host.Core.run core n t := by
  have hcore : core.step s = .next t := h
  simp only [Host.Core.run, hcore]

/-- A queue of inputs that decode is worked off, one input a step, and the invariant is kept. -/
theorem run_works_off (xs : List Input) (s : State) (hi : s.Inv) (hin : s.inputs = xs)
    (hdec : ∀ x ∈ xs, x.Decodes) :
    ∃ t, Host.Core.run core xs.length s = .next t ∧ State.inputs t = [] ∧ State.Inv t := by
  induction xs generalizing s with
  | nil => exact ⟨s, rfl, hin, hi⟩
  | cons x rest ih =>
    obtain ⟨hx, hrest⟩ := List.forall_mem_cons.mp hdec
    obtain ⟨t, ht⟩ := step_answers s x rest hi hin hx
    obtain ⟨u, hu, hdone⟩ := ih t (stepKeepsTheInvariant s t hi ht)
      (stepTakesTheOldestInputOnly s t x rest hin ht) hrest
    exact ⟨u, (run_succ_of_step rest.length s t ht).trans hu, hdone⟩

/-- Settles O57: by induction on the queue; each step answers, takes its input and keeps the invariant. -/
theorem everyInputIsWorkedOff : Obligations.EveryInputIsWorkedOff :=
  fun s hi hdec => run_works_off s.inputs s hi rfl hdec

end Sys2Proof.Machine
end

section
/-! PROOFS. The decoder's errors: an error is terminal, `dec_error` shows it, it is precise in stream order, and a buffer
that holds the largest frame never overflows (60_exceptions.md R202, R206, R207, R208, R210). -/

namespace Sys2Proof.Machine

/-- Settles O27: a step that is no reset waits or runs a command other than SOFT_RESET, and such a command leaves the
decoder's part of the state once `derr` is set. -/
theorem decoderErrorsAreTerminal : Obligations.DecoderErrorsAreTerminal := by
  intro s t hs hr h
  rcases step_cases_of_not_reset s t hr h with rfl | ⟨now, rest, i, hi, he⟩
  · exact ⟨rfl, rfl, fun _ => rfl⟩
  · obtain ⟨-, hkeep, -⟩ := feedAfterAnErrorDropsEveryByte
    obtain ⟨hderr, hbuf, hlevel⟩ := hkeep i { s with nowMs := now, inputs := rest } t hs hi he
    exact ⟨hderr, hlevel, fun a => by rw [hbuf]⟩

/-- `dec_error` says that `derr` is set (60_exceptions.md R208). -/
theorem decError_eq (s : State) : decError s = decide (s.derr ≠ .none) :=
  (statusReg_bit0 s).trans (isError_eq s.derr)

/-- Settles O43: `dec_error` is `derr != NONE`, which is FEED's error bit too, and a set `derr` is terminal. -/
theorem decErrorSurfacesTheDecoderError : Obligations.DecErrorSurfacesTheDecoderError := by
  refine ⟨decError_eq _, fun s => ⟨rfl, decError_eq s⟩, fun s t chunk ht => ?_,
    fun s t hs hr h => ?_⟩
  · obtain ⟨u, ms, hu, rfl⟩ := exec_feed_next chunk s t ht
    obtain ⟨-, -, -, -, hres, -⟩ := feedBytes_frame chunk s u ms hu
    exact ⟨ms, by rw [pushResult_results, hres, decError_eq, pushResult_derr, isError_eq]⟩
  · rw [decError_eq, decide_eq_true_iff] at hs ⊢
    obtain ⟨hderr, -⟩ := decoderErrorsAreTerminal s t hs hr h
    exact hderr ▸ hs

/-- The byte step that raises an error emits no Message: only a complete frame in range emits one, and it leaves the
decoder running (60_exceptions.md R206). -/
theorem acceptByte_emits_nothing_of_error (b : Byte) (s u : State) (ms : List Message)
    (hi : s.Inv) (h : acceptByte b s = .ok (u, ms)) (hd : u.derr ≠ .none) : ms = [] := by
  rcases acceptByte_cases b s hi with ⟨-, he⟩ | ⟨-, -, -, he⟩ | ⟨-, -, -, he⟩ |
    ⟨-, -, -, _, -, -, -, -, he⟩ | ⟨hn, -, -, _, -, -, -, -, he⟩ | ⟨-, -, -, he⟩
  case inr.inr.inr.inr.inl =>
    cases he.symm.trans h
    exact absurd hn hd
  all_goals cases he.symm.trans h; rfl

/-- Settles O33: the byte steps of `a ++ b :: c` are those of `a`, the one of `b`, which emits nothing, and those of `c`,
which do nothing while the decoder is halted. -/
theorem decoderErrorIsPreciseInStreamOrder : Obligations.DecoderErrorIsPreciseInStreamOrder := by
  intro s u v a c b hi hu hun hv hvn
  obtain ⟨u', ms, ha, hiu⟩ := feedBytes_keeps a s hi
  obtain ⟨v', ns, hb, -⟩ := acceptByte_keeps b u' hiu
  have hb1 : feedBytes [b] u' = .ok (v', ns) := by simp [feedBytes, hb]
  cases hu.symm.trans (exec_feed_of_feedBytes a s u' ms ha)
  cases hv.symm.trans (exec_feed_of_feedBytes [b] _ _ ns (feedBytes_pushResult [b] _ u' v' ns hb1))
  cases acceptByte_emits_nothing_of_error b u' v' ns hiu hb hvn
  have habc : feedBytes (a ++ b :: c) s = .ok (v', ms) := by
    simp [feedBytes_append, feedBytes, ha, hb, feedBytes_halted c v' hvn]
  obtain ⟨-, -, -, -, -, -, -, -, hlog⟩ := feedBytes_frame a s u' ms ha
  obtain ⟨-, -, -, -, hres, -, -, -, hlog'⟩ := feedBytes_frame (a ++ b :: c) s v' ms habc
  exact ⟨_, ms, exec_feed_of_feedBytes _ s v' ms habc, hlog'.trans hlog.symm, hlog, rfl, rfl, rfl,
    by simpa [hres] using hvn⟩

/-- No command changes the build (10_state.md R31). -/
theorem exec_cfg (i : Instr) (s t : State) (h : exec i s = .next t) : t.cfg = s.cfg := by
  rcases exec_decoder_cases i s t h with ⟨chunk, u, ms, -, hu, rfl⟩ | ⟨-, rfl⟩ | ⟨hcfg, -⟩
  · exact (feedBytes_frame chunk s u ms hu).1
  · rfl
  · exact hcfg

/-- No step changes the build: neither a command nor a reset does (10_state.md R31). -/
theorem step_cfg (s t : State) (h : step s = .next t) : t.cfg = s.cfg := by
  rcases step_cases s t h with ⟨-, rfl⟩ | ⟨c, now, rest, i, -, -, he⟩ | ⟨rest, -, rfl⟩ |
    ⟨c, now, k, rest, i, u, -, -, hu, rfl⟩
  · rfl
  · exact exec_cfg i { s with nowMs := now, inputs := rest } t he
  · rfl
  · exact (outputSoFar_frame i k _ u hu).1

/-- A buffer that holds every legal frame does not overflow: the head frame that overflowed it would have a legal length
and not fit (60_exceptions.md R202). -/
theorem derr_ne_bufferOverflow_of_inv (s : State) (hi : s.Inv)
    (hfit : s.cfg.maxFrameLen + 5 ≤ s.cfg.bufCap) : s.derr ≠ .bufferOverflow := by
  intro hd
  obtain ⟨-, -, -, hhead⟩ := hi
  cases hp : peekLength (retained s) with
  | none => simp [headFrameOk, hd, hp] at hhead
  | some fl =>
    simp only [headFrameOk, hd, hp, Bool.and_eq_true, decide_eq_true_eq, legalLength_iff,
      lengthPrefixSize] at hhead
    omega

/-- Settles O34: the step keeps the invariant and the build. -/
theorem defaultBuildNeverOverflows : Obligations.DefaultBuildNeverOverflows := by
  intro s t hi hfit _ h
  exact derr_ne_bufferOverflow_of_inv t (stepKeepsTheInvariant s t hi h) (step_cfg s t h ▸ hfit)

end Sys2Proof.Machine
end

section
/-! PROOFS. The two resets: SOFT_RESET, `rst` between commands, and `rst` during a FEED or an ENCODE, which keeps what the
command had output (43_control.md R191; 70_reset_and_hazards.md R240, R242). -/

namespace Sys2Proof.Machine

/-- Settles O8: an empty queue has no oldest input, and the queue is empty at reset. -/
theorem stepWithoutInputWaits : Obligations.StepWithoutInputWaits := by
  have hwait : ∀ s : State, s.inputs = [] → step s = .next s := by
    intro s hin
    simp only [step, takeInput, hin]
  exact ⟨hwait State.reset rfl, hwait⟩

/-- Settles O2: SOFT_RESET pushes its empty result and then resets the block. -/
theorem softResetEndsTheSegmentAndResets : Obligations.SoftResetEndsTheSegmentAndResets :=
  ⟨rfl, fun s => ⟨_, rfl, resetBlock_atReset (pushResult .none s), rfl, rfl, rfl, rfl, rfl⟩⟩

/-- A step with `rst` between commands resets the block (70_reset_and_hazards.md R240). -/
theorem step_of_rst (s : State) (rest : List Input) (hin : s.inputs = .rst :: rest) :
    step s = .next (resetBlock { s with inputs := rest }) := by
  simp only [step, takeInput, hin, runInput]

/-- Settles O3: both resets are `resetBlock`, which writes the results of the segment it ends to `ended` alone. -/
theorem hardwareResetActsAsSoftReset : Obligations.HardwareResetActsAsSoftReset :=
  fun s rest hin => ⟨_, _, step_of_rst s rest hin, rfl, rfl, rfl⟩

/-- A step with a command cut by `rst` resets the block after what the command had output (70_reset_and_hazards.md R240;
log entry 11). -/
theorem step_of_cut (s u : State) (i : Instr) (now : U64) (k : Nat) (rest : List Input)
    (hwf : i.wf = true) (hin : s.inputs = .commandCutByRst (encode i) now k :: rest)
    (hout : outputSoFar i k { s with nowMs := now, inputs := rest } = .ok u) :
    step s = .next (resetBlock u) := by
  simp only [step, takeInput, hin, runInput, decodeOfEncodeIsTheCommand i hwf, cutByReset, hout]

/-- Settles O4: the byte steps taken before the cut are those of FEED of the chunk's first `k` bytes.  Neither the clock
input nor the queue takes part in them, so they emit the same Messages in both runs. -/
theorem resetDuringFeedKeepsMessagesAlreadyOutput :
    Obligations.ResetDuringFeedKeepsMessagesAlreadyOutput := by
  intro s chunk now k rest hi hwf hin
  obtain ⟨u, ms, hu, -⟩ := feedBytes_keeps (chunk.take k) s hi
  obtain ⟨v, hv, -⟩ := feedBytes_congr (chunk.take k) s { s with nowMs := now, inputs := rest } u ms
    ⟨rfl, rfl, rfl, rfl⟩ hu
  have hstep : step s = .next (resetBlock v) :=
    step_of_cut s v _ now k rest hwf hin (by simp only [outputSoFar, hv])
  obtain ⟨-, -, -, -, -, -, -, -, humsg⟩ := feedBytes_frame _ s u ms hu
  obtain ⟨hcfg, -, -, htx, hres, hended, -, hinputs, hvmsg⟩ := feedBytes_frame _ _ v ms hv
  refine ⟨_, _, hstep, exec_feed_of_feedBytes _ s u ms hu, resetBlock_atReset v, hcfg, hinputs, rfl,
    ?_⟩
  simp [State.observation, humsg, hvmsg, htx, hres, hended]

/-- A frame is not empty: it starts with a header (42_encoder.md R160). -/
theorem ne_nil_of_encodeFrame (maxLen : Nat) (m : Byte) (ts : U64) (p f : Bytes)
    (h : encodeFrame maxLen m ts p = .ok f) : f ≠ [] := by
  obtain ⟨-, -, rfl⟩ := (encodeFrame_eq_ok _ _ _ _ _).mp h
  simp [packHeader]

/-- A refused ENCODE has sent nothing when it is cut (42_encoder.md R160; log entry 11). -/
theorem outputSoFar_encode_refused (m : Byte) (ts : U64) (p : Bytes) (k : Nat) (s : State)
    (r : EncodeReason) (h : encodeFrame s.cfg.maxFrameLen m ts p = .error r) :
    outputSoFar (.encode m ts p) k s = .ok s := by
  simp only [outputSoFar, h]

/-- An accepted ENCODE has sent the first `k` bytes of its frame when it is cut (70_reset_and_hazards.md R240; log entry
11). -/
theorem outputSoFar_encode_accepted (m : Byte) (ts : U64) (p f : Bytes) (k : Nat) (s : State)
    (h : encodeFrame s.cfg.maxFrameLen m ts p = .ok f) :
    outputSoFar (.encode m ts p) k s = .ok (send (f.take k) s) := by
  simp only [outputSoFar, h]

/-- Settles O5: by the outcome of the encoder's checks, which neither the clock input nor the queue takes part in.  A
refused ENCODE sends nothing, and an accepted one had sent the first `k` bytes of its frame. -/
theorem resetDuringEncodeKeepsBytesAlreadySent :
    Obligations.ResetDuringEncodeKeepsBytesAlreadySent := by
  intro s m ts p now k rest hwf hin
  rw [exec_encode]
  cases hf : encodeFrame s.cfg.maxFrameLen m ts p with
  | error r =>
    have hstep := step_of_cut s _ _ now k rest hwf hin
      (outputSoFar_encode_refused m ts p k { s with nowMs := now, inputs := rest } r hf)
    refine ⟨_, .frame [] true (some r), hstep, resetBlock_atReset _, rfl, rfl, rfl, ?_, ?_⟩
    · simp [runEncoder_refused _ _ _ _ _ hf, pushResult, raise, Result.sent]
    · simp [State.observation, Result.sent]
  | ok f =>
    have hstep := step_of_cut s _ _ now k rest hwf hin
      (outputSoFar_encode_accepted m ts p f k { s with nowMs := now, inputs := rest } hf)
    have hne : f ≠ [] := ne_nil_of_encodeFrame _ _ _ _ _ hf
    refine ⟨_, .frame f false none, hstep, resetBlock_atReset _, rfl, rfl, rfl, ?_, rfl⟩
    simp [runEncoder_accepted _ _ _ _ _ hf, pushResult, send, Result.sent, hne]

end Sys2Proof.Machine
end

section
/-! PROOFS. What is no command of the interface: a byte operand without its stated length (30_encoding.md R72, R74; log
entry 5). -/

namespace Sys2Proof.Machine

/-- A FEED or an ENCODE whose bytes are not as many as its length operand says does not decode (log entry 5). -/
theorem decode_of_wrong_length (c : Command) (hop : c.op = 0x01#8 ∨ c.op = 0x02#8)
    (hlen : c.data.length ≠ c.len.toNat) : decode c = .error .operandLength := by
  have hbytes : byteOperand c = .error .operandLength := if_neg hlen
  rcases hop with hop | hop
  · simp [decode, hop, hbytes]
  · simp [decode, hop, hbytes]

/-- Settles O10: a decoding can fail on a byte operand only, and a step with a value that does not decode is refused. -/
theorem decodeRefusesOnlyWrongOperandLength : Obligations.DecodeRefusesOnlyWrongOperandLength := by
  refine ⟨fun c h => ?_, fun s c now rest hin hop hlen => ?_⟩
  · obtain ⟨i, hi⟩ := decode_total c h
    exact ⟨i, hi, decode_wf c i hi⟩
  · simp only [step, takeInput, hin, runInput, decode_of_wrong_length c hop hlen]

end Sys2Proof.Machine
end

section
/-! PROOFS. What every step keeps, from any state: the build, the canonical form of the pending buffer, and what stands in
the logs (10_state.md R21, R31, R32). -/

namespace Sys2Proof.Machine

/-- Settles O53: neither a command nor a reset writes the build. -/
theorem stepKeepsTheBuild : Obligations.StepKeepsTheBuild := step_cfg

/-- The checks after BufAppend leave the buffer's bytes or drop them all (41_decoder.md R121). -/
theorem afterAppend_buf (s u : State) (ms : List Message) (h : afterAppend s = .ok (u, ms)) :
    u.buf = s.buf ∨ u.buf = [] := by
  have hconsume : consumeFrame s = .ok (u, ms) → u.buf = s.buf ∨ u.buf = [] := by
    intro hc
    unfold consumeFrame at hc
    split at hc
    · cases hc
    · split at hc
      · cases hc
      · split at hc
        · cases hc
          exact .inl (raise_buf _ s)
        · split at hc
          · cases hc
          · cases hc
            exact .inr rfl
  unfold afterAppend at h
  split at h
  · cases h
  · cases h
    exact .inl (raise_buf _ s)
  · split at h
    · cases h
    · exact hconsume h
    · cases h
      exact .inl rfl

/-- A byte step keeps the buffer's canonical form. -/
theorem acceptByte_keeps_wf (b : Byte) (s u : State) (ms : List Message)
    (h : acceptByte b s = .ok (u, ms)) (hw : Memory.wf s.buf = true) : Memory.wf u.buf = true := by
  unfold acceptByte at h
  split at h
  · cases h
    exact hw
  · split at h
    · cases h
      rwa [raise_buf]
    · split at h
      · cases h
      next s1 happend =>
        rcases afterAppend_buf s1 u ms h with hbuf | hbuf
        · exact hbuf ▸ bufAppend_wf b s s1 happend hw
        · exact hbuf ▸ wf_nil

/-- The byte steps of a chunk keep the buffer's canonical form. -/
theorem feedBytes_keeps_wf (bs : Bytes) (s u : State) (ms : List Message)
    (h : feedBytes bs s = .ok (u, ms)) (hw : Memory.wf s.buf = true) : Memory.wf u.buf = true := by
  induction bs generalizing s ms with
  | nil =>
    cases h
    exact hw
  | cons b bs ih =>
    rw [feedBytes] at h
    split at h
    · cases h
    next s1 m1 h1 =>
      split at h
      · cases h
      next s2 m2 h2 =>
        cases h
        exact ih s1 m2 h2 (acceptByte_keeps_wf b s s1 m1 h1 hw)

/-- Every command keeps the buffer's canonical form: only FEED's byte steps write the buffer, and SOFT_RESET empties
it. -/
theorem exec_keeps_wf (i : Instr) (s t : State) (hw : Memory.wf s.buf = true)
    (h : exec i s = .next t) : Memory.wf t.buf = true := by
  rcases exec_decoder_cases i s t h with ⟨chunk, u, ms, -, hu, rfl⟩ | ⟨-, rfl⟩ | ⟨-, hbuf, -⟩
  · exact feedBytes_keeps_wf chunk s u ms hu hw
  · exact wf_nil
  · exact hbuf ▸ hw

/-- Settles O52: by the ways a step answers.  A command keeps the canonical form, and a reset leaves an empty buffer. -/
theorem stepKeepsTheBufferCanonical : Obligations.StepKeepsTheBufferCanonical := by
  intro s t hw h
  rcases step_cases s t h with ⟨-, rfl⟩ | ⟨c, now, rest, i, -, -, he⟩ | ⟨rest, -, rfl⟩ |
    ⟨c, now, k, rest, i, u, -, -, -, rfl⟩
  · exact hw
  · exact exec_keeps_wf i { s with nowMs := now, inputs := rest } t hw he
  · exact wf_nil
  · exact wf_nil

/-- The logs of `t` are the logs of `s` with `ms`, `bs` and `rs` at their ends, in the same segment (10_state.md R32). -/
def State.LogsGrow (s t : State) (ms : List Message) (bs : Bytes) (rs : List Result) : Prop :=
  t.msgLog = s.msgLog ++ ms ∧ t.txLog = s.txLog ++ bs ∧ t.results = s.results ++ rs ∧
    t.ended = s.ended

/-- A state whose logs are the same is one whose logs grow by nothing. -/
theorem logsGrow_nil (s t : State) (hmsg : t.msgLog = s.msgLog) (htx : t.txLog = s.txLog)
    (hres : t.results = s.results) (hended : t.ended = s.ended) : s.LogsGrow t [] [] [] := by
  simp [State.LogsGrow, hmsg, htx, hres, hended]

/-- A result pushed after the Messages and the bytes is one more entry of the results (10_state.md R32). -/
theorem logsGrow_pushResult (r : Result) (s u : State) (ms : List Message) (bs : Bytes)
    (h : s.LogsGrow u ms bs []) : s.LogsGrow (pushResult r u) ms bs [r] := by
  obtain ⟨hmsg, htx, hres, hended⟩ := h
  exact ⟨hmsg, htx, by simp [hres], hended⟩

/-- Every command but SOFT_RESET only appends to the logs. -/
theorem exec_grows_logs (i : Instr) (s t : State) (hi : i ≠ .softReset)
    (h : exec i s = .next t) : ∃ ms bs rs, s.LogsGrow t ms bs rs := by
  rcases exec_cases i s t h with ⟨chunk, u, ms, -, hu, rfl⟩ | ⟨-, ⟨r, rfl⟩ | ⟨f, rfl⟩⟩ |
    ⟨-, r, rfl, -, -⟩ | ⟨rfl, -⟩ | ⟨-, rfl⟩
  · obtain ⟨-, -, -, htx, hres, hended, -, -, hmsg⟩ := feedBytes_frame chunk s u ms hu
    exact ⟨ms, [], _, logsGrow_pushResult _ s u ms []
      ⟨hmsg, by simp [htx], by simp [hres], hended⟩⟩
  · exact ⟨[], [], _, logsGrow_pushResult _ s _ [] [] (logsGrow_nil s _ rfl rfl rfl rfl)⟩
  · exact ⟨[], f, _, logsGrow_pushResult _ s (send f s) [] f (by simp [State.LogsGrow])⟩
  · exact ⟨[], [], _, logsGrow_pushResult r s s [] [] (logsGrow_nil s s rfl rfl rfl rfl)⟩
  · exact absurd rfl hi
  · exact ⟨[], [], _, logsGrow_pushResult _ s _ [] [] (logsGrow_nil s _ rfl rfl rfl rfl)⟩

/-- A step that is a reset resets the block after the logs have grown: SOFT_RESET by its own result, a command cut short
by what it had output (43_control.md R191; 70_reset_and_hazards.md R240). -/
theorem step_cases_of_reset (s t : State) (hr : s.resetNext = true) (h : step s = .next t) :
    ∃ u ms bs rs, s.LogsGrow u ms bs rs ∧ t = resetBlock u := by
  rcases step_cases s t h with ⟨hin, -⟩ | ⟨c, now, rest, i, hin, hdec, he⟩ | ⟨rest, -, rfl⟩ |
    ⟨c, now, k, rest, i, u, -, -, hu, rfl⟩
  · simp [State.resetNext, hin] at hr
  · have hop : c.op = 0x07#8 := by simpa [State.resetNext, hin, Input.resets] using hr
    obtain rfl : i = .softReset := by simpa [decode, hop] using hdec.symm
    cases he
    exact ⟨_, [], [], _, logsGrow_pushResult .none s { s with nowMs := now, inputs := rest } [] []
      (logsGrow_nil s _ rfl rfl rfl rfl), rfl⟩
  · exact ⟨_, [], [], [], logsGrow_nil s { s with inputs := rest } rfl rfl rfl rfl, rfl⟩
  · obtain ⟨-, hres, hended, -, -, ⟨ms, hmsg⟩, bs, htx⟩ := outputSoFar_frame i k _ u hu
    exact ⟨u, ms, bs, [], ⟨hmsg, htx, by simp [hres], hended⟩, rfl⟩

/-- Settles O54: a step that is no reset waits or runs a command other than SOFT_RESET, and a reset moves the grown logs
to `ended`. -/
theorem logsOnlyGrow : Obligations.LogsOnlyGrow := by
  intro s t h
  cases hr : s.resetNext with
  | false =>
    have hgrow : ∃ ms bs rs, s.LogsGrow t ms bs rs := by
      rcases step_cases_of_not_reset s t hr h with rfl | ⟨now, rest, i, hi, he⟩
      · exact ⟨[], [], [], logsGrow_nil t t rfl rfl rfl rfl⟩
      · exact exec_grows_logs i { s with nowMs := now, inputs := rest } t hi he
    obtain ⟨ms, bs, rs, hlogs⟩ := hgrow
    exact ⟨ms, bs, rs, fun _ => hlogs, nofun⟩
  | true =>
    obtain ⟨u, ms, bs, rs, ⟨hmsg, htx, hres, hended⟩, rfl⟩ := step_cases_of_reset s t hr h
    exact ⟨ms, bs, rs, nofun, fun _ => ⟨rfl, rfl, rfl,
      by simp [State.observation, hmsg, htx, hres, hended]⟩⟩

end Sys2Proof.Machine
end
